-- ==== Sys2Proof/Word.lean ====
section
/-! DEFINITION. The word types of the block (00_scope.md R11, 20_memory.md R50). -/

namespace Sys2Proof

/-- A byte: "an 8-bit unsigned quantity, the atomic unit of both payload and frame" (R11). -/
abbrev Byte := BitVec 8

/-- The contents of a register, 32 bits (R11), and a command word (R81). -/
abbrev Word := BitVec 32

/-- A byte offset from BASE, 18 bits (R50). -/
abbrev Offset := BitVec 18

end Sys2Proof
end

