-- ==== Sys2Proof/Syntax.lean ====
section
/-! DEFINITION. The commands (30_encoding.md R80, R81), one constructor per row of opcode_table.json. -/

namespace Sys2Proof

/-- A command. ENCODE, DECODE and SIZE have no operand field (R83); the two BAD rows stand for every other
CMD word. -/
inductive Instr where
  /-- ENCODE (R131) -/
  | encode
  /-- DECODE (R152) -/
  | decode
  /-- SIZE (R182) -/
  | size
  /-- BAD_COMMAND_OP0: the word 0x00000000 (R87, R116) -/
  | badCommandOp0
  /-- BAD_COMMAND_RSVD: bits [31:2] are `rsvd`, not zero, and bits [1:0] are `op`, any value (R87, R116) -/
  | badCommandRsvd (rsvd : BitVec 30) (op : BitVec 2)
deriving DecidableEq, Repr

/-- The operation OPR of R38: one of ENCODE, DECODE, SIZE, BAD. -/
inductive Opr where
  | encode | decode | size | bad
deriving DecidableEq, Repr

end Sys2Proof
end

