-- ==== Sys2Proof/WellFormed.lean ====
section
/-! DEFINITION. Which terms of Instr stand for a command word (30_encoding.md R80, R87). -/

namespace Sys2Proof

/-- The row BAD_COMMAND_RSVD has the condition that bits [31:2] are not zero (opcode_table.json, R82); the
other rows have no field. -/
def wellFormed : Instr → Bool
  | .encode => true
  | .decode => true
  | .size => true
  | .badCommandOp0 => true
  | .badCommandRsvd rsvd _ => rsvd != 0

end Sys2Proof
end

