-- ==== Sys2Proof/Decode.lean ====
section
/-! DEFINITION. Decoding and encoding of the command word (30_encoding.md R80 to R82, R87). The decoding is
total on all 2^32 words: no word is left without a command, and the reserved ones are named BAD. -/

namespace Sys2Proof

/-- OP, bits [1:0] of the command word (R81). -/
def cmdOp (v : Word) : BitVec 2 := v.extractLsb' 0 2

/-- RSVD, bits [31:2] of the command word (R81). -/
def cmdRsvd (v : Word) : BitVec 30 := v.extractLsb' 2 30

/-- `decode_cmd` (R82): the reserved bits are checked first, then OP. -/
def decodeCmd (v : Word) : Instr :=
  if cmdRsvd v ≠ 0 then .badCommandRsvd (cmdRsvd v) (cmdOp v)
  else if cmdOp v = 0b01 then .encode
  else if cmdOp v = 0b10 then .decode
  else if cmdOp v = 0b11 then .size
  else .badCommandOp0

/-- A command word put together from its two fields (R81). -/
def cmdWord (rsvd : BitVec 30) (op : BitVec 2) : Word := rsvd ++ op

/-- The command word of an instruction (R80, opcode_table.json). -/
def encodeCmd : Instr → Word
  | .encode => cmdWord 0 0b01
  | .decode => cmdWord 0 0b10
  | .size => cmdWord 0 0b11
  | .badCommandOp0 => cmdWord 0 0b00
  | .badCommandRsvd rsvd op => cmdWord rsvd op

/-- The operation that `decode_cmd` names for an instruction (R82, R38). -/
def oprOf : Instr → Opr
  | .encode => .encode
  | .decode => .decode
  | .size => .size
  | .badCommandOp0 => .bad
  | .badCommandRsvd _ _ => .bad

/-- The command word whose low `nbits` bits are those of `w` and whose other bits are 0. Bit 0 of the table's
numbering is bit 0 of the word written to CMD (R11, R81; assumption log 16). -/
def tableWord (nbits w : Nat) : Word := BitVec.ofNat 32 (w % 2 ^ nbits)

/-- The instruction that `decodeCmd` reads from a row of opcode_table.json. A command is 4 bytes and no more
(R81), so a longer one is no command. -/
def decodeTableWord (nbits w : Nat) : Option Instr :=
  if nbits ≤ 32 then some (decodeCmd (tableWord nbits w)) else none

end Sys2Proof
end

