-- ==== Sys2Proof/Config.lean ====
section
/-! DEFINITION. What is fixed when the block is built (00_scope.md R6 to R10, 93_implementation_defined.md
I1 to I5), and the free values of the spec's open points (I6 to I8). -/

namespace Sys2Proof

/-- How DECODE treats the last input byte (93_implementation_defined.md I1). -/
inductive TailMode where
  /-- Index N-1 is never scanned as a body byte: the reading of 42_decode.md R152, 90_conflicts.md C3. -/
  | skip
  /-- The alternative rows of I1. -/
  | literal
deriving DecidableEq, Repr

/-- What the final check of DECODE tests (93_implementation_defined.md I2). -/
inductive FinalMode where
  /-- OK iff IN[N-1] is END: the reading of 42_decode.md R152, 90_conflicts.md C2. -/
  | lastByte
  /-- OK iff the scan stopped at an END, or IN[N-1] is END. -/
  | endSeen
deriving DecidableEq, Repr

/-- The parameters of the block (R6, I1 to I4). -/
structure Params where
  /-- START -/
  startByte : Byte
  /-- END -/
  endByte : Byte
  /-- ESCAPE -/
  escapeByte : Byte
  /-- CODE_START, the escape code for START -/
  codeStart : Byte
  /-- CODE_END, the escape code for END -/
  codeEnd : Byte
  /-- CODE_ESCAPE, the escape code for ESCAPE -/
  codeEscape : Byte
  /-- IN_CAP -/
  inCap : Nat
  /-- OUT_CAP -/
  outCap : Nat
  tailMode : TailMode
  finalMode : FinalMode
deriving DecidableEq, Repr

/-- The six constants in one list: START, END, ESCAPE and their codes. -/
def Params.constants (p : Params) : List Byte :=
  [p.startByte, p.endByte, p.escapeByte, p.codeStart, p.codeEnd, p.codeEscape]

/-- The constraints on the parameters: the six constants are pairwise distinct (R7, R8, R9), and the
capacities are in range (R10). -/
abbrev Params.Legal (p : Params) : Prop :=
  p.constants.Nodup ∧ (1 ≤ p.inCap ∧ p.inCap ≤ 65535) ∧ (2 ≤ p.outCap ∧ p.outCap ≤ 65535)

/-- The parameters of this hardware (R6), with TAIL_MODE = SKIP and FINAL_MODE = LAST_BYTE (I1, I2;
assumption log 1). -/
def Config.build : Params where
  startByte := 0xAB
  endByte := 0xCD
  escapeByte := 0x1E
  codeStart := 0x01
  codeEnd := 0x03
  codeEscape := 0x02
  inCap := 256
  outCap := 256
  tailMode := .skip
  finalMode := .lastByte

/-- BASE, set by the platform (R6, I5). No rule depends on its value (assumption log 11). -/
opaque Config.base : Nat

/-- The platform address at which the host reaches offset `off` (R50). -/
def Config.hostAddress (off : Offset) : Nat := Config.base + off.toNat

/-- FREE VALUE: what one read takes for byte `k` of IN_BUF when that byte was not written since reset, at
draw `d` (R35, D30, I6; assumption log 4). -/
opaque Config.freeInByte (d k : Nat) : Byte

/-- FREE VALUE: the contents of byte `k` of OUT_BUF after the reset that took draw `d` (R36, I6;
assumption log 5). -/
opaque Config.freeOutByte (d k : Nat) : Byte

/-- FREE VALUE: what a read of an OUT_BUF byte returns while BUSY = 1, at draw `d` (R58, I7; assumption
log 6). -/
opaque Config.freeBusyByte (d : Nat) : Byte

/-- FREE VALUE: what a read of OUT_LEN or SIZE_VAL returns while BUSY = 1, at draw `d` (R58, I7;
assumption log 6). -/
opaque Config.freeBusyWord (d : Nat) : Word

/-- FREE VALUE: how many host turns an operation lasts, at draw `d` (R114, I8; assumption log 3). -/
opaque Config.freeDuration (d : Nat) : Nat

end Sys2Proof
end

