-- ==== Sys2Proof/Machine/State.lean ====
section
/-! DEFINITION. The state of the block as plain data (10_state.md), what the host may do to it (20_memory.md
R50, 30_encoding.md R93, R94), and the state after reset (10_state.md R40, 70_reset_and_hazards.md R230). -/

namespace Sys2Proof.Machine

/-- The result codes of R85; 8 to 15 are never produced (I15). The numbers are in Flags.lean. -/
inductive ResultCode where
  | none | ok | emptyInput | noStartMarker | noEndMarker | decodeError | overflow | badCommand
deriving DecidableEq, Repr

/-- STATUS (R24). Bit 3 and bits [31:8] are hardwired to 0 and have no storage. -/
structure Status where
  busy : Bool
  done : Bool
  werr : Bool
  result : ResultCode
deriving DecidableEq, Repr

/-- The states of the escape-sequence state machine (R38, R152). -/
inductive DState where
  | seek | body | esc | final
deriving DecidableEq, Repr

/-- The internal state of a running operation (R38). `draw` and `wait` are the model's own. -/
structure OpState where
  /-- OPR, held as the decoded instruction; `oprOf` gives the spec's four values (assumption log 10) -/
  opr : Instr
  /-- N, the value of IN_LEN at acceptance -/
  n : Nat
  /-- DSTATE, DECODE's state -/
  dstate : DState
  /-- i, DECODE's scan index -/
  i : Nat
  /-- cnt, DECODE's accumulated output count -/
  cnt : Nat
  /-- k, ENCODE's input index -/
  k : Nat
  /-- j, ENCODE's output index -/
  j : Nat
  /-- MODEL'S OWN: the draw that this operation's first reads of never-written IN_BUF bytes take; its second
  reads take the next one (log 4) -/
  draw : Nat
  /-- MODEL'S OWN: how many host turns pass before the operation completes (I8, log 3) -/
  wait : Nat
deriving DecidableEq, Repr

/-- The two buffers as one list of written bytes, keyed by bus offset (R51, R62), addresses strictly rising. -/
abbrev Memory := List Host.Cell

/-- What a byte that nothing has written since reset holds: no value (R35, R36). Reading such a byte gives a
free value (Operands.lean, Bus.lean; assumption log 19). -/
def Memory.unlisted : Option Byte := none

/-- The canonical form: addresses strictly rising. A listed byte is a written one, so no entry is equal to
what an unlisted address holds. -/
def Memory.wf : Memory → Bool
  | [] => true
  | [_] => true
  | x :: y :: m => decide (x.1 < y.1) && Memory.wf (y :: m)

/-- The access widths `n` of R50. -/
inductive Width where
  | w1 | w2 | w4
deriving DecidableEq, Repr

/-- An `n`-byte value (R50). -/
inductive BusData where
  | b1 (v : BitVec 8)
  | b2 (v : BitVec 16)
  | b4 (v : BitVec 32)
deriving DecidableEq, Repr

/-- The response of a transaction (R50). -/
inductive Resp where
  | okay | err
deriving DecidableEq, Repr

/-- What the host gets back from one transaction (R50). -/
inductive BusResponse where
  | read (resp : Resp) (data : BusData)
  | write (resp : Resp)
deriving DecidableEq, Repr

/-- What the platform does next (R50, R93, R94, R230, R233). -/
inductive HostEvent where
  /-- `MemRead(off, n)` -/
  | read (off : Offset) (n : Width)
  /-- `MemWrite(off, n, v)` -/
  | write (off : Offset) (d : BusData)
  /-- WAIT: read STATUS until the value read has DONE = 1 (R94) -/
  | wait
  /-- read STATUS until the value read has BUSY = 0 (R233 step 2) -/
  | waitIdle
  /-- the platform asserts and releases RST (R230; assumption log 8) -/
  | rst
deriving DecidableEq, Repr

/-- The state of the block and of the platform's side of its port. -/
structure State where
  status : Status
  /-- IN_LEN (R29) -/
  inLen : Word
  /-- OUT_LEN (R30) -/
  outLen : Word
  /-- SIZE_VAL (R31) -/
  sizeVal : Word
  /-- IN_BUF and OUT_BUF (R35, R36) -/
  mem : Memory
  /-- The running operation (R38); none when no operation is running (R40) -/
  op : Option OpState
  /-- MODEL'S OWN: what the platform does next, in order (log 7) -/
  hostQueue : List HostEvent
  /-- MODEL'S OWN: the responses the host got, the newest first (log 7) -/
  responses : List BusResponse
  /-- MODEL'S OWN: the durations of the coming operations; where none is listed, a free value (log 3) -/
  durations : List Nat
  /-- MODEL'S OWN: the number of draws of free values so far (log 13) -/
  draws : Nat
  /-- MODEL'S OWN: the draw that OUT_BUF's contents took at the last reset (log 5) -/
  outDraw : Nat
deriving DecidableEq, Repr

/-- Why the machine stops. The block itself has no fault (R200): each of these guards an access or a length
that the spec's rules exclude, and no state that satisfies the model's invariant reaches one (log 15). -/
inductive Fault where
  /-- Raised by `guardIn` and `readInput` (Operands.lean): an operation would read IN_BUF outside indices 0 to
  N-1, which R61 and R165 exclude. Safe. -/
  | inBufIndex
  /-- Raised by `emit` (Ops.lean): ENCODE would write OUT_BUF outside indices 0 to OUT_CAP-1, which R132
  excludes. Safe. -/
  | outBufIndex
  /-- Raised by `runOp` (Ops.lean): an operation would take more than N + 3 internal steps, which R114, R133
  and R165 exclude. Safe. -/
  | unfinished
deriving DecidableEq, Repr

/-- Why an instruction has no meaning. -/
inductive Refusal where
  /-- Raised by an arm of `exec` whose instruction has no meaning yet; none is left. Safe. -/
  | notModelled (mnemonic : String)
deriving DecidableEq, Repr

/-- STATUS right after reset: 0x00000000 (R40). -/
def Status.reset : Status where
  busy := false
  done := false
  werr := false
  result := .none

/-- The block right after reset (R40, R230): registers 0, no byte of IN_BUF or OUT_BUF written, no operation.
The model's own fields start empty or at 0 (assumption log 13). -/
def State.reset : State where
  status := Status.reset
  inLen := 0
  outLen := 0
  sizeVal := 0
  mem := []
  op := none
  hostQueue := []
  responses := []
  durations := []
  draws := 0
  outDraw := 0

end Sys2Proof.Machine
end

