-- ==== Sys2Proof/Machine/Flags.lean ====
section
/-! DEFINITION. The result codes and the STATUS word (10_state.md R24 to R28, 30_encoding.md R85, R86). -/

namespace Sys2Proof.Machine

/-- The number of a result code (R85). -/
def resultNumber : ResultCode → BitVec 4
  | .none => 0
  | .ok => 1
  | .emptyInput => 2
  | .noStartMarker => 3
  | .noEndMarker => 4
  | .decodeError => 5
  | .overflow => 6
  | .badCommand => 7

/-- The STATUS word: RESULT in [7:4], bit 3 zero, WERR, DONE, BUSY at bit 0, zero-extended (R86). -/
def statusWord (st : Status) : Word :=
  (resultNumber st.result ++ 0#1 ++ BitVec.ofBool st.werr ++ BitVec.ofBool st.done
    ++ BitVec.ofBool st.busy).setWidth 32

/-- `STATUS.WERR <- 1`: the block ignored a host write (R27, R57). -/
def setWerr (s : State) : State := { s with status := { s.status with werr := true } }

/-- A host write of `v` to STATUS: bit 2 clears WERR, every other bit is ignored (R24). -/
def writeStatus (v : Word) (s : State) : State :=
  if v.getLsbD 2 then { s with status := { s.status with werr := false } } else s

/-- STATUS at the acceptance of a command (R110). -/
def acceptStatus (st : Status) : Status := { st with busy := true, done := false, result := .none }

/-- STATUS at a completion with result code `c` (R115). -/
def finishStatus (c : ResultCode) (st : Status) : Status :=
  { st with busy := false, done := true, result := c }

end Sys2Proof.Machine
end

