-- ==== Sys2Proof/Machine/Operands.lean ====
section
/-! DEFINITION. The implicit operands of every command (30_encoding.md R83): the length N and the bytes
IN_BUF[0..N); and the places of the two buffers in the address map (20_memory.md R51). -/

namespace Sys2Proof.Machine

/-- The offset of IN_BUF[0] (R51). -/
def inBase : Nat := 0x10000

/-- The offset of OUT_BUF[0] (R51). -/
def outBase : Nat := 0x20000

/-- The byte written at an address, or none where nothing has written it since reset (R35, R36). -/
def memLookup : Memory → Nat → Option Byte
  | [], _ => Memory.unlisted
  | (x, c) :: m, a => if a = x then some c else memLookup m a

/-- The value of IN_BUF[k] for a read at draw `d`: the byte last written, or a free value where none was
written since reset (R35, D30, I6). -/
def inByte (d k : Nat) (s : State) : Byte :=
  match memLookup s.mem (inBase + k) with
  | some b => b
  | none => Config.freeInByte d k

/-- The value that OUT_BUF[k] holds: the byte last written, or the free value drawn at the last reset (R36,
I6). -/
def outByte (k : Nat) (s : State) : Byte :=
  match memLookup s.mem (outBase + k) with
  | some b => b
  | none => Config.freeOutByte s.outDraw k

/-- `[IN_BUF[0], ..., IN_BUF[N-1]]` read at draw `d` (R83). -/
def inputAt (d n : Nat) (s : State) : List Byte := (List.range n).map fun k => inByte d k s

/-- The input of a running operation, as its first read of each byte gives it (R83). A byte written since
reset does not change while the operation runs (R64 item 2); another is a fresh draw per read (I6). -/
def opInput (o : OpState) (s : State) : List Byte := inputAt o.draw o.n s

/-- What an operation's second read of IN[k] gives: a fresh draw for a byte not written since reset (R35, D30,
I6; assumption log 4). No operation reads a byte more than twice. -/
def againByte (o : OpState) (k : Nat) (s : State) : Byte := inByte (o.draw + 1) k s

/-- What an operation's second read of each byte gives. -/
def opInputAgain (o : OpState) (s : State) : List Byte := inputAt (o.draw + 1) o.n s

/-- IN[N-1] as the final check of DECODE reads it (R151 item 3). -/
def finalByte (o : OpState) (s : State) : Byte := againByte o (o.n - 1) s

/-- An access of a running operation to IN_BUF[k], which gives `b`: only at indices 0 to N-1, N at most IN_CAP
(R61, R83). -/
def guardIn (p : Params) (o : OpState) (k : Nat) (b : Byte) : Except Fault Byte :=
  if k < o.n ∧ o.n ≤ p.inCap then .ok b else .error .inBufIndex

/-- The first read of IN[k] by a running operation. -/
def readIn (p : Params) (o : OpState) (k : Nat) (s : State) : Except Fault Byte :=
  guardIn p o k (inByte o.draw k s)

/-- The second read of IN[k] by a running operation. -/
def readAgain (p : Params) (o : OpState) (k : Nat) (s : State) : Except Fault Byte :=
  guardIn p o k (againByte o k s)

/-- The whole input as the argument of EncSize (R131, R182): the first read of each byte. -/
def readInput (p : Params) (o : OpState) (s : State) : Except Fault (List Byte) :=
  if o.n ≤ p.inCap then .ok (opInput o s) else .error .inBufIndex

end Sys2Proof.Machine
end

