-- ==== Sys2Proof/Machine/Ops.lean ====
section
/-! DEFINITION. The shared operations: writing memory, accepting a command (40_command.md R110), completing
or raising (R115, 00_scope.md R13), the output primitives emit and append (41_encode.md R132, 42_decode.md
R153), and running an operation to its end (R113, R114). -/

namespace Sys2Proof.Machine

/-- Write one byte, keeping the addresses rising. -/
def memWrite : Memory → Nat → Byte → Memory
  | [], a, b => [(a, b)]
  | (x, c) :: m, a, b =>
    if a < x then (a, b) :: (x, c) :: m
    else if a = x then (a, b) :: m
    else (x, c) :: memWrite m a b

/-- Write the bytes of a list from an address upwards. -/
def memWriteList : Memory → Nat → List Byte → Memory
  | m, _, [] => m
  | m, a, b :: bs => memWriteList (memWrite m a b) (a + 1) bs

/-- The internal state that acceptance gives an operation (R38, R110): N latched, DSTATE = SEEK, indices 0. -/
def startOp (i : Instr) (n draw wait : Nat) : OpState where
  opr := i
  n := n
  dstate := .seek
  i := 0
  cnt := 0
  k := 0
  j := 0
  draw := draw
  wait := wait

/-- How many host turns the next operation lasts: the platform's choice where one is listed, else a free value
(R114, I8). -/
def nextDuration (s : State) : Nat :=
  match s.durations with
  | d :: _ => d
  | [] => Config.freeDuration s.draws

/-- The operation that the acceptance of `i` starts (R110). -/
def acceptedOp (i : Instr) (s : State) : OpState := startOp i s.inLen.toNat s.draws (nextDuration s)

/-- Acceptance of a command (R110). The operation takes two draws, one for its first reads of never-written
bytes and one for its second reads (assumption log 4). -/
def acceptCommand (i : Instr) (s : State) : State :=
  { s with
    status := acceptStatus s.status
    op := some (acceptedOp i s)
    durations := s.durations.tail
    draws := s.draws + 2 }

/-- `finish(c)` and `raise c()`, one operation (R13, R115, R200, R211): the result code is recorded, DONE is
set, BUSY is cleared and the internal state is discarded. Nothing is saved, no control is transferred, and
there is no return (R212). -/
def finish (c : ResultCode) (s : State) : State :=
  { s with status := finishStatus c s.status, op := none }

/-- `OUT_LEN <- v`. -/
def setOutLen (v : Nat) (s : State) : State := { s with outLen := BitVec.ofNat 32 v }

/-- `SIZE_VAL <- v`. -/
def setSizeVal (v : Nat) (s : State) : State := { s with sizeVal := BitVec.ofNat 32 v }

/-- `OUT[k] <- v` (R61). -/
def writeOut (k : Nat) (v : Byte) (s : State) : State :=
  { s with mem := memWrite s.mem (outBase + k) v }

/-- The outcome of one internal step of an operation. -/
inductive Micro where
  /-- the operation goes on, with its internal state and the state of the block -/
  | running (o : OpState) (s : State)
  /-- the operation has completed (R115) -/
  | finished (s : State)
  /-- a guard of the model stopped it (Fault) -/
  | fault (r : Fault)
deriving DecidableEq, Repr

/-- `emit(v)`, the encoder's output primitive (R132). -/
def emit (p : Params) (v : Byte) (o : OpState) (s : State) : Except Fault (OpState × State) :=
  if o.j < p.outCap then .ok ({ o with j := o.j + 1 }, writeOut o.j v s) else .error .outBufIndex

/-- `emit` of each byte of a list, in order. -/
def emitAll (p : Params) : List Byte → OpState → State → Except Fault (OpState × State)
  | [], o, s => .ok (o, s)
  | v :: vs, o, s =>
    match emit p v o s with
    | .ok (o', s') => emitAll p vs o' s'
    | .error r => .error r

/-- `append(v)`, the decoder's output primitive: a full output buffer ends the operation with OVERFLOW (R153).
cnt never exceeds OUT_CAP (R38), so "not below OUT_CAP" is the rule's `cnt == OUT_CAP`. -/
def append (p : Params) (v : Byte) (o : OpState) (s : State) : Micro :=
  if o.cnt < p.outCap then .running { o with cnt := o.cnt + 1 } (writeOut o.cnt v s)
  else .finished (finish .overflow (setOutLen 0 s))

/-- Run internal steps until the operation ends, at most `fuel` of them (R113, R114). -/
def runOp (f : OpState → State → Micro) :
    Nat → OpState → State → Host.Outcome State Fault Refusal
  | 0, _, _ => .fault .unfinished
  | fuel + 1, o, s =>
    match f o s with
    | .running o' s' => runOp f fuel o' s'
    | .finished s' => .next s'
    | .fault r => .fault r

/-- The number of internal steps that every operation ends within: N + 3 (R165; ENCODE takes N + 2, SIZE and
BAD take one). -/
def stepBound (o : OpState) : Nat := o.n + 3

/-- The running operation that a meaning works on: the one that was accepted, or, in a state in which none is
running, the one that the acceptance of `i` starts (R110; assumption log 12). -/
def runCommand (f : OpState → State → Micro) (i : Instr) (s : State) :
    Host.Outcome State Fault Refusal :=
  match s.op with
  | some o => runOp f (stepBound o) o s
  | none => runOp f (stepBound (acceptedOp i s)) (acceptedOp i s) (acceptCommand i s)

end Sys2Proof.Machine
end

