-- ==== Sys2Proof/Machine/Bus.lean ====
section
/-! DEFINITION. The host bus (20_memory.md R50 to R60), the registers as the host sees them (10_state.md R22
to R34), and the reset event (70_reset_and_hazards.md R230, R231). -/

namespace Sys2Proof.Machine

/-- The eight registers (R22). -/
inductive Reg where
  | cmd | status | inLen | outLen | sizeVal | cfgRsv | cfgCode | cap
deriving DecidableEq, Repr

/-- The regions of the offset window (R51). -/
inductive Region where
  | registers
  | inBuf (k : Nat)
  | outBuf (k : Nat)
  | reserved
deriving DecidableEq, Repr

/-- The region an offset lies in (R51). -/
def regionOf (p : Params) (off : Offset) : Region :=
  if off.toNat < 0x20 then .registers
  else if inBase ≤ off.toNat ∧ off.toNat < inBase + p.inCap then .inBuf (off.toNat - inBase)
  else if outBase ≤ off.toNat ∧ off.toNat < outBase + p.outCap then .outBuf (off.toNat - outBase)
  else .reserved

/-- The register at an offset, if the offset is that of a register; another offset of the region is
misaligned (R51, R52). -/
def regAt (off : Offset) : Option Reg :=
  if off = 0x00000 then some .cmd
  else if off = 0x00004 then some .status
  else if off = 0x00008 then some .inLen
  else if off = 0x0000C then some .outLen
  else if off = 0x00010 then some .sizeVal
  else if off = 0x00014 then some .cfgRsv
  else if off = 0x00018 then some .cfgCode
  else if off = 0x0001C then some .cap
  else none

/-- CFG_RSV: START, END and ESCAPE at bits 0, 8 and 16 (R32). -/
def cfgRsvWord (p : Params) : Word := 0#8 ++ p.escapeByte ++ p.endByte ++ p.startByte

/-- CFG_CODE: the codes in the field positions of their reserved bytes (R33). -/
def cfgCodeWord (p : Params) : Word := 0#8 ++ p.codeEscape ++ p.codeEnd ++ p.codeStart

/-- CAP: IN_CAP in bits [15:0], OUT_CAP in bits [31:16] (R34). -/
def capWord (p : Params) : Word := BitVec.ofNat 16 p.outCap ++ BitVec.ofNat 16 p.inCap

/-- One draw of a free value is used up. -/
def nextDraw (s : State) : State := { s with draws := s.draws + 1 }

/-- A legal read of a register: its value, and the state after (R52). OUT_LEN and SIZE_VAL read as a free
value while BUSY = 1 (R58). CMD reads 0 (R23). -/
def readReg (p : Params) (r : Reg) (s : State) : Word × State :=
  match r with
  | .cmd => (0, s)
  | .status => (statusWord s.status, s)
  | .inLen => (s.inLen, s)
  | .outLen => if s.status.busy then (Config.freeBusyWord s.draws, nextDraw s) else (s.outLen, s)
  | .sizeVal => if s.status.busy then (Config.freeBusyWord s.draws, nextDraw s) else (s.sizeVal, s)
  | .cfgRsv => (cfgRsvWord p, s)
  | .cfgCode => (cfgCodeWord p, s)
  | .cap => (capWord p, s)

/-- A legal read of IN_BUF[k]: exact, also while BUSY = 1 (R53), but for a byte not written since reset, which
is a fresh draw at each read (R35, D30). -/
def readInBuf (k : Nat) (s : State) : Byte × State :=
  match memLookup s.mem (inBase + k) with
  | some b => (b, s)
  | none => (Config.freeInByte s.draws k, nextDraw s)

/-- A legal read of OUT_BUF[k]: a free value while BUSY = 1, else the byte it holds (R54, R58). -/
def readOutBuf (k : Nat) (s : State) : Byte × State :=
  if s.status.busy then (Config.freeBusyByte s.draws, nextDraw s) else (outByte k s, s)

/-- The value 0 of a width: the read data of a response ERR (R50). -/
def zeroData : Width → BusData
  | .w1 => .b1 0
  | .w2 => .b2 0
  | .w4 => .b4 0

/-- The response to a read that is not legal (R50, R55, R207). -/
def readErr (n : Width) : BusResponse := .read .err (zeroData n)

/-- `MemRead(off, n)` (R50, R52 to R55): the response, and the state after. -/
def busRead (p : Params) (off : Offset) (n : Width) (s : State) : BusResponse × State :=
  match regionOf p off, n with
  | .registers, .w4 =>
    match regAt off with
    | some r => (.read .okay (.b4 (readReg p r s).1), (readReg p r s).2)
    | none => (readErr n, s)
  | .inBuf k, .w1 => (.read .okay (.b1 (readInBuf k s).1), (readInBuf k s).2)
  | .outBuf k, .w1 => (.read .okay (.b1 (readOutBuf k s).1), (readOutBuf k s).2)
  | _, _ => (readErr n, s)

/-- A write to CMD: accepted while BUSY = 0 (R110), ignored and flagged while BUSY = 1 (R112). -/
def writeCmd (v : Word) (s : State) : State :=
  if s.status.busy then setWerr s else acceptCommand (decodeCmd v) s

/-- A write to IN_LEN (R29). -/
def writeInLen (p : Params) (v : Word) (s : State) : State :=
  if s.status.busy then setWerr s
  else if p.inCap < v.toNat then setWerr s
  else { s with inLen := v }

/-- A legal write to IN_BUF[k] (R53). -/
def writeInBuf (k : Nat) (b : Byte) (s : State) : State :=
  if s.status.busy then setWerr s else { s with mem := memWrite s.mem (inBase + k) b }

/-- A 4-byte write to a register (R52): CMD, STATUS and IN_LEN take it, the others answer ERR. -/
def writeReg (p : Params) (r : Reg) (v : Word) (s : State) : BusResponse × State :=
  match r with
  | .cmd => (.write .okay, writeCmd v s)
  | .status => (.write .okay, writeStatus v s)
  | .inLen => (.write .okay, writeInLen p v s)
  | .outLen => (.write .err, s)
  | .sizeVal => (.write .err, s)
  | .cfgRsv => (.write .err, s)
  | .cfgCode => (.write .err, s)
  | .cap => (.write .err, s)

/-- `MemWrite(off, n, v)` (R50, R52 to R55): the response, and the state after. -/
def busWrite (p : Params) (off : Offset) (d : BusData) (s : State) : BusResponse × State :=
  match regionOf p off, d with
  | .registers, .b4 v =>
    match regAt off with
    | some r => writeReg p r v s
    | none => (.write .err, s)
  | .inBuf k, .b1 b => (.write .okay, writeInBuf k b s)
  | _, _ => (.write .err, s)

/-- RST (R230, R231): every register takes its reset value, a running operation is abandoned, no byte of the
buffers keeps a value, and OUT_BUF takes a new draw. What the platform does next, what the host has seen and
the counter of free values are not the block's and go on (assumption log 8). -/
def resetBlock (s : State) : State :=
  { State.reset with
    hostQueue := s.hostQueue
    responses := s.responses
    durations := s.durations
    draws := s.draws + 1
    outDraw := s.draws + 1 }

/-- The host gets a response. -/
def respond (r : BusResponse × State) : State := { r.2 with responses := r.1 :: r.2.responses }

/-- One turn of a polling loop: a read of STATUS (R94, R233). The loop leaves the queue where this read is its
last, and else stays at its head. -/
def poll (p : Params) (last : Bool) (rest : List HostEvent) (s : State) : State :=
  respond (busRead p 0x00004 .w4 (if last then { s with hostQueue := rest } else s))

/-- One event of the platform, taken off the queue (R64: completely before the next). WAIT polls STATUS until
the value read has DONE = 1 (R94), the wait of R233 step 2 until it has BUSY = 0. -/
def hostEvent (p : Params) (e : HostEvent) (rest : List HostEvent) (s : State) : State :=
  match e with
  | .read off n => respond (busRead p off n { s with hostQueue := rest })
  | .write off d => respond (busWrite p off d { s with hostQueue := rest })
  | .wait => poll p s.status.done rest s
  | .waitIdle => poll p (!s.status.busy) rest s
  | .rst => resetBlock { s with hostQueue := rest }

/-- The platform's turn: its next event, or nothing where none is pending (R226). -/
def hostTurn (p : Params) (s : State) : State :=
  match s.hostQueue with
  | [] => s
  | e :: rest => hostEvent p e rest s

end Sys2Proof.Machine
end

