-- ==== Sys2Proof/Machine/BadCommand.lean ====
section
/-! DEFINITION. BAD, the operation for an illegal command word (40_command.md R116). -/

namespace Sys2Proof.Machine

/-- The one internal step of BAD (R116): `raise BAD_COMMAND()`, with no operand read. -/
def badStep (_ : OpState) (s : State) : Micro := .finished (finish .badCommand s)

/-- BAD_COMMAND_OP0 (R116). -/
def execBadCommandOp0 (s : State) : Host.Outcome State Fault Refusal :=
  runCommand badStep .badCommandOp0 s

/-- BAD_COMMAND_RSVD (R116): the fields of the word have no effect. -/
def execBadCommandRsvd (rsvd : BitVec 30) (op : BitVec 2) (s : State) :
    Host.Outcome State Fault Refusal :=
  runCommand badStep (.badCommandRsvd rsvd op) s

end Sys2Proof.Machine
end

