-- ==== Sys2Proof/Machine/Wire.lean ====
section
/-! DEFINITION. The wire format (30_encoding.md R88 to R91) and the size function (43_size.md R180). One
constant table, read by all three units (10_state.md R21, 43_size.md R183). -/

namespace Sys2Proof.Machine

/-- A reserved byte: START, END or ESCAPE (R89). Every other byte is literal. -/
def isReserved (p : Params) (b : Byte) : Bool :=
  b = p.startByte || b = p.endByte || b = p.escapeByte

/-- `code(b)`, the escape code of a reserved byte (R8). A literal byte has none. -/
def codeOf (p : Params) (b : Byte) : Option Byte :=
  if b = p.startByte then some p.codeStart
  else if b = p.endByte then some p.codeEnd
  else if b = p.escapeByte then some p.codeEscape
  else none

/-- The reserved byte that an escape code stands for (R8, R152 state ESC), or none where the byte is no code. -/
def reservedOf (p : Params) (c : Byte) : Option Byte :=
  if c = p.codeStart then some p.startByte
  else if c = p.codeEscape then some p.escapeByte
  else if c = p.codeEnd then some p.endByte
  else none

/-- The wire bytes of a payload byte (R90). -/
def wireForm (p : Params) (b : Byte) : List Byte :=
  match codeOf p b with
  | some c => [p.escapeByte, c]
  | none => [b]

/-- `w(b)` (R180). -/
def wireWeight (p : Params) (b : Byte) : Nat := if isReserved p b then 2 else 1

/-- `EncSize(p)` (R180). -/
def encSize (p : Params) (payload : List Byte) : Nat := 2 + (payload.map (wireWeight p)).sum

/-- `r(p)`, the number of reserved bytes of a payload (R181). -/
def reservedCount (p : Params) (payload : List Byte) : Nat := payload.countP (isReserved p)

/-- The frame of a payload: START, the wire forms in payload order, END (R130, R137). -/
def frame (p : Params) (payload : List Byte) : List Byte :=
  p.startByte :: payload.flatMap (wireForm p) ++ [p.endByte]

/-- An element of BODY in the grammar of R88. -/
inductive BodyElem where
  /-- LITERAL -/
  | literal (b : Byte)
  /-- ESCAPED: ESCAPE and the code that follows it -/
  | escaped (c : Byte)
deriving DecidableEq, Repr

/-- Whether a body element is one that the grammar allows: a literal byte is not reserved, and a code is one
of the three codes (R88). -/
def bodyElemLegal (p : Params) : BodyElem → Bool
  | .literal b => !isReserved p b
  | .escaped c => c = p.codeStart || c = p.codeEscape || c = p.codeEnd

/-- The bytes of a body element (R88, R91). -/
def bodyElemBytes (p : Params) : BodyElem → List Byte
  | .literal b => [b]
  | .escaped c => [p.escapeByte, c]

/-- FRAME := START BODY END, BODY := (LITERAL | ESCAPED)* (R88). -/
def IsFrame (p : Params) (bytes : List Byte) : Prop :=
  ∃ body : List BodyElem, (∀ e ∈ body, bodyElemLegal p e = true) ∧
    bytes = p.startByte :: body.flatMap (bodyElemBytes p) ++ [p.endByte]

end Sys2Proof.Machine
end

