-- ==== Sys2Proof/Machine/DecodeOp.lean ====
section
/-! DEFINITION. DECODE and the escape-sequence state machine (42_decode.md R152), one internal step per input
byte. -/

namespace Sys2Proof.Machine

/-- State SEEK: find the first START (R152). -/
def decodeSeek (p : Params) (o : OpState) (s : State) : Micro :=
  if o.i = o.n then .finished (finish .noStartMarker (setOutLen 0 s))
  else
    match readIn p o o.i s with
    | .error r => .fault r
    | .ok b =>
      if b = p.startByte then .running { o with dstate := .body, i := o.i + 1 } s
      else .running { o with i := o.i + 1 } s

/-- The last input byte under TAIL_MODE = LITERAL (I1): at index N-1 it is taken as END, as a START that
resynchronises, or as an ordinary byte; at index N it was consumed as a code. -/
def decodeTail (p : Params) (o : OpState) (s : State) : Micro :=
  if o.i + 1 = o.n then
    match readIn p o o.i s with
    | .error r => .fault r
    | .ok b =>
      if b = p.endByte then .running { o with dstate := .final } s
      else if b = p.startByte then .running { o with dstate := .final, cnt := 0 } s
      else append p b { o with dstate := .final } s
  else .running { o with dstate := .final } s

/-- State BODY: one body byte; the scan stops one byte before the end of the input (R151, R152). -/
def decodeBody (p : Params) (o : OpState) (s : State) : Micro :=
  if o.n ≤ o.i + 1 then
    match p.tailMode with
    | .skip => .running { o with dstate := .final } s
    | .literal => decodeTail p o s
  else
    match readIn p o o.i s with
    | .error r => .fault r
    | .ok b =>
      if b = p.startByte then .running { o with cnt := 0, i := o.i + 1 } s
      else if b = p.endByte then .running { o with dstate := .final } s
      else if b = p.escapeByte then .running { o with dstate := .esc, i := o.i + 1 } s
      else append p b { o with i := o.i + 1 } s

/-- State ESC: the code byte (R152). -/
def decodeEsc (p : Params) (o : OpState) (s : State) : Micro :=
  match readIn p o o.i s with
  | .error r => .fault r
  | .ok c =>
    match reservedOf p c with
    | some v => append p v { o with i := o.i + 1, dstate := .body } s
    | none => .finished (finish .decodeError (setOutLen 0 s))

/-- Whether the final check passes for the last input byte `b` (R151 item 3; I2 for END_SEEN, where the scan
stopped at an END exactly when it stopped before index N-1). -/
def finalCheck (p : Params) (o : OpState) (b : Byte) : Bool :=
  match p.finalMode with
  | .lastByte => b = p.endByte
  | .endSeen => b = p.endByte || o.i + 1 < o.n

/-- State FINAL: the final-byte-is-END check (R152). It reads IN[N-1] itself, also where SEEK or ESC has read
that byte before. -/
def decodeFinal (p : Params) (o : OpState) (s : State) : Micro :=
  match readAgain p o (o.n - 1) s with
  | .error r => .fault r
  | .ok b =>
    if finalCheck p o b then .finished (finish .ok (setOutLen o.cnt s))
    else .finished (finish .noEndMarker (setOutLen o.cnt s))

/-- One `step()` of R152. -/
def scanStep (p : Params) (o : OpState) (s : State) : Micro :=
  match o.dstate with
  | .seek => decodeSeek p o s
  | .body => decodeBody p o s
  | .esc => decodeEsc p o s
  | .final => decodeFinal p o s

/-- One internal step of DECODE: the EMPTY_INPUT check comes before any work (R117), then `step()`. -/
def decodeStep (p : Params) (o : OpState) (s : State) : Micro :=
  if o.n = 0 then .finished (finish .emptyInput (setOutLen 0 s)) else scanStep p o s

/-- DECODE (R152). -/
def execDecode (s : State) : Host.Outcome State Fault Refusal :=
  runCommand (decodeStep Config.build) .decode s

end Sys2Proof.Machine
end

