-- ==== Sys2Proof/Machine/EncodeOp.lean ====
section
/-! DEFINITION. ENCODE (41_encode.md R131), one internal step per input byte, with one step before the loop
and one after it. -/

namespace Sys2Proof.Machine

/-- The steps before the loop (R131): the EMPTY_INPUT check (R117), SIZE_VAL, the OVERFLOW check, and START. -/
def encodeBegin (p : Params) (o : OpState) (s : State) : Micro :=
  if o.n = 0 then .finished (finish .emptyInput (setOutLen 0 s))
  else
    match readInput p o s with
    | .error r => .fault r
    | .ok payload =>
      if p.outCap < encSize p payload then
        .finished (finish .overflow (setOutLen 0 (setSizeVal (encSize p payload) s)))
      else
        match emit p p.startByte o (setSizeVal (encSize p payload) s) with
        | .ok (o', s') => .running o' s'
        | .error r => .fault r

/-- A second read of a byte as ENCODE may find it. `first` is what EncSize read, `b` a fresh draw where the
byte was not written since reset, else the same byte. R132 and R133 hold the draw to a limit: exactly EncSize(in)
bytes are emitted, so a byte counted as one (or two) is emitted as one (or two) (assumption log 4). -/
def secondRead (p : Params) (first b : Byte) : Byte :=
  if wireWeight p b = wireWeight p first then b else first

/-- `b := IN[k]` in the loop of R131. -/
def encodedByte (p : Params) (o : OpState) (k : Nat) (s : State) : Byte :=
  secondRead p (inByte o.draw k s) (againByte o k s)

/-- The payload that ENCODE encodes: what its loop reads. It is `in` wherever the reads agree, so wherever the
bytes were written since reset. -/
def encodedInput (p : Params) (o : OpState) (s : State) : List Byte :=
  (List.range o.n).map fun k => encodedByte p o k s

/-- The loop body of R131 for `b := IN[k]`: a reserved byte gives ESCAPE and its code, another byte itself. -/
def encodeByte (p : Params) (o : OpState) (s : State) : Micro :=
  match readAgain p o o.k s with
  | .error r => .fault r
  | .ok b =>
    match emitAll p (wireForm p (secondRead p (inByte o.draw o.k s) b)) o s with
    | .ok (o', s') => .running { o' with k := o.k + 1 } s'
    | .error r => .fault r

/-- The steps after the loop (R131): END, OUT_LEN, OK. -/
def encodeEnd (p : Params) (o : OpState) (s : State) : Micro :=
  match emit p p.endByte o s with
  | .ok (o', s') => .finished (finish .ok (setOutLen o'.j s'))
  | .error r => .fault r

/-- One internal step of ENCODE. `j` is 0 exactly before START is emitted (R38, R132). -/
def encodeStep (p : Params) (o : OpState) (s : State) : Micro :=
  if o.j = 0 then encodeBegin p o s
  else if o.k < o.n then encodeByte p o s
  else encodeEnd p o s

/-- ENCODE (R131). -/
def execEncode (s : State) : Host.Outcome State Fault Refusal :=
  runCommand (encodeStep Config.build) .encode s

end Sys2Proof.Machine
end

