-- ==== Sys2Proof/Machine/SizeOp.lean ====
section
/-! DEFINITION. SIZE (43_size.md R182). -/

namespace Sys2Proof.Machine

/-- The one internal step of SIZE (R182): no check on N, nothing written but SIZE_VAL and STATUS. -/
def sizeStep (p : Params) (o : OpState) (s : State) : Micro :=
  match readInput p o s with
  | .error r => .fault r
  | .ok payload => .finished (finish .ok (setSizeVal (encSize p payload) s))

/-- SIZE (R182). -/
def execSize (s : State) : Host.Outcome State Fault Refusal :=
  runCommand (sizeStep Config.build) .size s

end Sys2Proof.Machine
end

