-- ==== Sys2Proof/Machine/Dispatch.lean ====
section
/-! DEFINITION. One arm per command (40_command.md R113). -/

namespace Sys2Proof.Machine

/-- The operation of a command, run to its completion as one atomic step of the codec (R113, R114). -/
def exec (i : Instr) (s : State) : Host.Outcome State Fault Refusal :=
  match i with
  | .encode => Sys2Proof.Machine.execEncode s
  | .decode => Sys2Proof.Machine.execDecode s
  | .size => Sys2Proof.Machine.execSize s
  | .badCommandOp0 => Sys2Proof.Machine.execBadCommandOp0 s
  | .badCommandRsvd rsvd op => Sys2Proof.Machine.execBadCommandRsvd rsvd op s

end Sys2Proof.Machine
end

