-- ==== Sys2Proof/Machine/Progress.lean ====
section
/-! DEFINITION. The codec's work between acceptance and completion (40_command.md R113): it advances while the
host's transactions go on, and nothing of it is visible before the completion. -/

namespace Sys2Proof.Machine

/-- One internal step of the running operation (R113). -/
def microStep (p : Params) (o : OpState) (s : State) : Micro :=
  match o.opr with
  | .encode => encodeStep p o s
  | .decode => decodeStep p o s
  | .size => sizeStep p o s
  | .badCommandOp0 => badStep o s
  | .badCommandRsvd _ _ => badStep o s

/-- The codec takes one internal step, unless that step would end the operation: the completion is a step of
its own (R115; assumption log 2). -/
def advance (p : Params) (o : OpState) (s : State) : State :=
  match microStep p o s with
  | .running o' s' => { s' with op := some o' }
  | .finished _ => { s with op := some o }
  | .fault _ => { s with op := some o }

end Sys2Proof.Machine
end

