-- ==== Sys2Proof/Machine/Step.lean ====
section
/-! DEFINITION. One step of the machine: the host's or the codec's (10_state.md R20, 20_memory.md R64). -/

namespace Sys2Proof.Machine

/-- Which agent moves. With no operation running it is the host. While one runs, the host has as many turns as
the operation's duration says, with the codec working meanwhile (R113); then the operation completes in one
atomic step of the codec (R114, R115). -/
def step (s : State) : Host.Outcome State Fault Refusal :=
  match s.op with
  | none => .next (hostTurn Config.build s)
  | some o =>
    match o.wait with
    | 0 => exec o.opr s
    | w + 1 => .next (hostTurn Config.build (advance Config.build { o with wait := w } s))

/-- `s` with the command word `w` accepted and its operation due: the very next step runs it (assumption log
9). The word's bits above `nbits` are 0. -/
def State.withFetchWord (s : State) (nbits w : Nat) : State :=
  { acceptCommand (decodeCmd (tableWord nbits w)) s with
    op := some { acceptedOp (decodeCmd (tableWord nbits w)) s with wait := 0 } }

end Sys2Proof.Machine
end

