-- ==== Sys2Proof/Machine/HostProgram.lean ====
section
/-! DEFINITION. The host program notation and its pseudo-instructions (30_encoding.md R93, R94). -/

namespace Sys2Proof.Machine

/-- `WR32 off, v` (R93). -/
def wr32 (off : Offset) (v : Word) : HostEvent := .write off (.b4 v)

/-- `WR8 off, v` (R93). -/
def wr8 (off : Offset) (v : Byte) : HostEvent := .write off (.b1 v)

/-- `RD32 off` (R93). -/
def rd32 (off : Offset) : HostEvent := .read off .w4

/-- `RD8 off` (R93). -/
def rd8 (off : Offset) : HostEvent := .read off .w1

/-- `IN_BUF+k` (R93). -/
def inBufOffset (k : Nat) : Offset := BitVec.ofNat 18 (inBase + k)

/-- `OUT_BUF+k` (R93). -/
def outBufOffset (k : Nat) : Offset := BitVec.ofNat 18 (outBase + k)

/-- `ENCODE`, `DECODE`, `SIZE` and a bad command: `WR32 CMD` with the command's word (R94). -/
def issue (i : Instr) : HostEvent := wr32 0x00000 (encodeCmd i)

/-- `SETLEN n` (R94). -/
def setLen (n : Word) : HostEvent := wr32 0x00008 n

/-- `CLRWERR` (R94). -/
def clrWerr : HostEvent := wr32 0x00004 0x00000004

/-- `LOAD k, b0, ..., bm` (R94). -/
def load : Nat → List Byte → List HostEvent
  | _, [] => []
  | k, b :: bs => wr8 (inBufOffset k) b :: load (k + 1) bs

/-- `FETCH k, m` (R94). -/
def fetch (k m : Nat) : List HostEvent := (List.range m).map fun x => rd8 (outBufOffset (k + x))

/-- Step 1 of R233: read CFG_RSV, CFG_CODE and CAP. -/
def readConstants : List HostEvent := [rd32 0x00014, rd32 0x00018, rd32 0x0001C]

/-- What R233 and R242 leave to the host. -/
structure UseChoices where
  /-- step 1: learn the constants -/
  learn : Bool
  /-- step 2: a command may be running -/
  running : Bool
  /-- clear WERR before step 3 (R242) -/
  clearFirst : Bool
  /-- step 4 before step 3 -/
  lengthFirst : Bool
  /-- step 8: the number of OUT_BUF bytes to read after OUT_LEN; none to read SIZE_VAL -/
  outputs : Option Nat
deriving DecidableEq, Repr

/-- Steps 3 and 4 of R233, in either order: write the input bytes, and write IN_LEN. -/
def writeInput (lengthFirst : Bool) (input : List Byte) : List HostEvent :=
  if lengthFirst then setLen (BitVec.ofNat 32 input.length) :: load 0 input
  else load 0 input ++ [setLen (BitVec.ofNat 32 input.length)]

/-- Step 8 of R233: read RESULT, then OUT_LEN and `m` bytes of OUT_BUF, or SIZE_VAL. -/
def readResults : Option Nat → List HostEvent
  | some m => rd32 0x00004 :: rd32 0x0000C :: fetch 0 m
  | none => [rd32 0x00004, rd32 0x00010]

/-- The use order of R233: step 1, step 2 (wait for BUSY = 0), R242's clearing of WERR, steps 3 and 4, step 5
(the command), step 6 (poll until DONE = 1), step 7 (read STATUS for WERR, and clear it), step 8. -/
def useOrder (c : UseChoices) (i : Instr) (input : List Byte) : List HostEvent :=
  (if c.learn then readConstants else []) ++ (if c.running then [.waitIdle] else []) ++
  (if c.clearFirst then [clrWerr] else []) ++ writeInput c.lengthFirst input ++
  [issue i, .wait, rd32 0x00004, clrWerr] ++ readResults c.outputs

end Sys2Proof.Machine
end

