-- ==== Sys2Proof/Machine/LoopForm.lean ====
section
/-! DEFINITION. The loop form of DECODE (42_decode.md R166), as a function of what it reads and of memory alone.
The machine does not use it: the statements hold the state machine of R152 against it. -/

namespace Sys2Proof.Machine

/-- How the loop of R166 ends: it stopped with a count, or an error ended the operation. -/
inductive ScanEnd where
  | stopped (cnt : Nat) (mem : Memory)
  | failed (c : ResultCode) (mem : Memory)
deriving DecidableEq, Repr

/-- What follows the least index with IN[s] == START, or none where there is no such index (R166). -/
def afterStart (p : Params) : List Byte → Option (List Byte)
  | [] => none
  | b :: rest => if b = p.startByte then some rest else afterStart p rest

/-- The while loop of R166 on the bytes from index `i` to N-1: it goes on while at least two are left. -/
def scanLoop (p : Params) : List Byte → Nat → Memory → ScanEnd
  | [], cnt, m => .stopped cnt m
  | [_], cnt, m => .stopped cnt m
  | b :: c :: rest, cnt, m =>
    if b = p.startByte then scanLoop p (c :: rest) 0 m
    else if b = p.endByte then .stopped cnt m
    else if b = p.escapeByte then
      match reservedOf p c with
      | some v =>
        if cnt < p.outCap then scanLoop p rest (cnt + 1) (memWrite m (outBase + cnt) v)
        else .failed .overflow m
      | none => .failed .decodeError m
    else if cnt < p.outCap then scanLoop p (c :: rest) (cnt + 1) (memWrite m (outBase + cnt) b)
    else .failed .overflow m

/-- What the loop form leaves: the result code, OUT_LEN, and memory (R166). -/
structure LoopResult where
  result : ResultCode
  outLen : Nat
  mem : Memory
deriving DecidableEq, Repr

/-- The loop form of DECODE (R166). `last` is what its last line reads as IN[N-1]. -/
def decodeLoop (p : Params) (input : List Byte) (last : Byte) (m : Memory) : LoopResult :=
  if input = [] then ⟨.emptyInput, 0, m⟩
  else
    match afterStart p input with
    | none => ⟨.noStartMarker, 0, m⟩
    | some rest =>
      match scanLoop p rest 0 m with
      | .failed c m' => ⟨c, 0, m'⟩
      | .stopped cnt m' =>
        if last = p.endByte then ⟨.ok, cnt, m'⟩ else ⟨.noEndMarker, cnt, m'⟩

end Sys2Proof.Machine
end

