-- ==== Sys2Proof/Safety.lean ====
section
/-! DEFINITION. The terms in which claims are stated: an accepted operation, the invariant of
the block, and a run that does not stop. -/

namespace Sys2Proof.Safety

open Sys2Proof.Machine

/-- `i` has been accepted in `s` and has not yet taken an internal step (R110): `o` is its internal state, and
N, the latched IN_LEN, is at most IN_CAP. -/
def Started (i : Instr) (s : State) (o : OpState) : Prop :=
  s.op = some o ∧ o = startOp i s.inLen.toNat o.draw o.wait ∧ o.n ≤ Config.build.inCap

/-- The input of the operation is `x`: every read of it gives the bytes of `x`. That is so of an input that the
host has written since reset, and of any other whose free values agree (R35, I6; assumption log 4). -/
def Reads (o : OpState) (s : State) (x : List Byte) : Prop := opInput o s = x ∧ opInputAgain o s = x

/-- The bytes OUT_BUF[0..OUT_LEN) of a state (R30, R84). -/
def output (s : State) : List Byte := (List.range s.outLen.toNat).map fun k => outByte k s

/-- An address of IN_BUF or of OUT_BUF (R51). -/
def Mapped (p : Params) (a : Nat) : Prop :=
  (inBase ≤ a ∧ a < inBase + p.inCap) ∨ (outBase ≤ a ∧ a < outBase + p.outCap)

/-- What holds of the internal state of a running operation (R38, R61, R132, R164). -/
structure OpInvariant (p : Params) (s : State) (o : OpState) : Prop where
  /-- the operation is that of a command word (R82) -/
  opWellFormed : wellFormed o.opr = true
  /-- N == IN_LEN throughout (R38) -/
  latched : o.n = s.inLen.toNat
  /-- the scan index is 0 to N (R38) -/
  scanIndex : o.i ≤ o.n
  /-- no more bytes are appended than scanned (R164) -/
  countBelowIndex : o.cnt ≤ o.i
  /-- cnt is 0 to OUT_CAP (R38) -/
  countRange : o.cnt ≤ p.outCap
  /-- a code byte is inside the input (R152, state ESC) -/
  escInside : o.dstate = .esc → o.i < o.n
  /-- k is 0 to N (R38) -/
  inputIndex : o.k ≤ o.n
  /-- j is 0 to OUT_CAP (R38) -/
  outputIndex : o.j ≤ p.outCap
  /-- before START is emitted no input byte has been encoded (R131) -/
  encodeBegins : o.j = 0 → o.k = 0
  /-- after START the frame fits, and j counts the bytes of START and of the first k bytes' wire forms
  (R132, R133) -/
  encodeCount : 0 < o.j → 0 < o.n ∧ encSize p (opInput o s) ≤ p.outCap ∧
    o.j = 1 + (((opInput o s).take o.k).map (wireWeight p)).sum

/-- The invariant of the block: what holds after reset and is kept by every step. -/
structure Invariant (p : Params) (s : State) : Prop where
  /-- memory is in its canonical form -/
  memCanonical : Memory.wf s.mem = true
  /-- only bytes of IN_BUF and OUT_BUF are held (R51, R62) -/
  memMapped : ∀ c ∈ s.mem, Mapped p c.1
  /-- IN_LEN is 0 to IN_CAP (R29) -/
  inLenRange : s.inLen.toNat ≤ p.inCap
  /-- OUT_LEN is 0 to OUT_CAP (R30) -/
  outLenRange : s.outLen.toNat ≤ p.outCap
  /-- SIZE_VAL is 2 to 2 + 2 * IN_CAP, or the reset value 0 (R31) -/
  sizeValRange : s.sizeVal = 0 ∨ (2 ≤ s.sizeVal.toNat ∧ s.sizeVal.toNat ≤ 2 + 2 * p.inCap)
  /-- BUSY is 1 exactly while an operation runs (R25) -/
  busyWhileRunning : s.status.busy = s.op.isSome
  /-- BUSY and DONE are never 1 together (R26) -/
  busyExcludesDone : ¬ (s.status.busy = true ∧ s.status.done = true)
  /-- RESULT != NONE exactly when DONE = 1 (R28) -/
  resultWhenDone : s.status.result ≠ .none ↔ s.status.done = true
  /-- the running operation's internal state -/
  opInvariant : ∀ o, s.op = some o → OpInvariant p s o

/-- The four host writes that the block answers with OKAY and ignores (R57). -/
def IgnoredWrite (s : State) (off : Offset) (d : BusData) : Prop :=
  (off = 0x00000 ∧ (∃ v, d = .b4 v) ∧ s.status.busy = true) ∨
  (off = 0x00008 ∧ (∃ v, d = .b4 v) ∧ s.status.busy = true) ∨
  (off = 0x00008 ∧ ∃ v, d = .b4 v ∧ 256 < v.toNat) ∨
  ((0x10000 ≤ off.toNat ∧ off.toNat < 0x10100) ∧ (∃ b, d = .b1 b) ∧ s.status.busy = true)

/-- A run of `k` steps that neither faults nor is refused, and where it leads. -/
def RunsTo (k : Nat) (s t : State) : Prop := Sys2Proof.core.run k s = .next t

/-- A safe run: it goes on for any number of steps. -/
def Safe (s : State) : Prop := ∀ k, ∃ t, RunsTo k s t

end Sys2Proof.Safety
end

