-- ==== Sys2Proof/Certificates/Slice0/Obligations.lean ====
section
/-! DEFINITION. The statements for the provers. `Started i s o` says that the command `i` has been accepted in
`s` and that `o` is its internal state; `exec` then runs the operation to its completion. Each docstring names
the rule of spec/ that the statement formalises. -/

open Sys2Proof Sys2Proof.Machine Sys2Proof.Safety

/-! ### The command word -/

/-- R80, R81: the words of opcode_table.json, and words of the BAD rows (95_test_vectors.md DV-B1 to DV-B7). -/
def Obligations.CommandWordsOfTheTable : Prop :=
  decodeCmd 0x00000001 = .encode ∧ decodeCmd 0x00000002 = .decode ∧ decodeCmd 0x00000003 = .size ∧
  decodeCmd 0x00000000 = .badCommandOp0 ∧ decodeCmd 0x00000005 = .badCommandRsvd 1 1 ∧
  decodeCmd 0x80000001 = .badCommandRsvd 0x20000000 1 ∧
  decodeCmd 0xFFFFFFFF = .badCommandRsvd 0x3FFFFFFF 3

/-- R82: which words are which operation, over all 2^32 words. -/
def Obligations.EveryWordHasItsOperation : Prop :=
  ∀ v : Word,
    (oprOf (decodeCmd v) = .encode ↔ v = 0x00000001) ∧
    (oprOf (decodeCmd v) = .decode ↔ v = 0x00000002) ∧
    (oprOf (decodeCmd v) = .size ↔ v = 0x00000003) ∧
    (oprOf (decodeCmd v) = .bad ↔ v.extractLsb' 2 30 ≠ 0 ∨ v.extractLsb' 0 2 = 0b00)

/-- R80 to R82: the decoding of an encoded well-formed instruction is that instruction. -/
def Obligations.DecodingAnEncodedCommandGivesItBack : Prop :=
  ∀ i : Instr, wellFormed i = true → decodeCmd (encodeCmd i) = i

/-- R82, R87: every word decodes to a well-formed instruction, whose encoding is that word. -/
def Obligations.EncodingADecodedWordGivesItBack : Prop :=
  ∀ v : Word, wellFormed (decodeCmd v) = true ∧ encodeCmd (decodeCmd v) = v

/-! ### Acceptance, and which agent moves -/

/-- R110: a write to CMD while BUSY = 0. The values of `durations`, `draws`, and of `draw` and `wait` in the
operation are the model's choice (log 3, log 4, log 13), and so is the last clause, that a duration of 0 makes the
next step `exec` of the decoded command (log 2, log 3). -/
def Obligations.AcceptanceOfACommand : Prop :=
  ∀ (s : State) (v : Word), s.status.busy = false →
    ∃ t : State,
      busWrite Config.build 0x00000 (.b4 v) s = (.write .okay, t) ∧
      t = { s with
            status := { s.status with busy := true, done := false, result := .none }
            op := some (startOp (decodeCmd v) s.inLen.toNat s.draws (nextDuration s))
            durations := s.durations.tail
            draws := s.draws + 2 } ∧
      (nextDuration s = 0 → step t = exec (decodeCmd v) t)

/-- R112: a write to CMD while BUSY = 1. -/
def Obligations.CommandWrittenWhileBusyIsIgnored : Prop :=
  ∀ (s : State) (v : Word), s.status.busy = true →
    busWrite Config.build 0x00000 (.b4 v) s =
      (.write .okay, { s with status := { s.status with werr := true } })

/-- The model's choice (log 2, log 3), within what R64, R113 and R114 leave open: the host moves while no operation
runs; while one runs and host turns are left, the codec works on and the host moves; else the step is `exec` of the
accepted instruction. -/
def Obligations.StepRunsTheAcceptedCommand : Prop :=
  ∀ s : State,
    (s.op = none → step s = .next (hostTurn Config.build s)) ∧
    (∀ o, s.op = some o → o.wait = 0 → step s = exec o.opr s) ∧
    (∀ o w, s.op = some o → o.wait = w + 1 →
      step s = .next (hostTurn Config.build (advance Config.build { o with wait := w } s)))

/-- Log 9 (the model's choice): the step after `withFetchWord` runs the instruction that the decoder reads from the word, on a block
that has just accepted it. -/
def Obligations.StepRunsTheFetchedWord : Prop :=
  ∀ (s : State) (nbits w : Nat) (i : Instr), decodeTableWord nbits w = some i →
    (s.withFetchWord nbits w).op = some (startOp i s.inLen.toNat s.draws 0) ∧
    (s.withFetchWord nbits w).mem = s.mem ∧ (s.withFetchWord nbits w).inLen = s.inLen ∧
    step (s.withFetchWord nbits w) = exec i (s.withFetchWord nbits w)

/-- Log 12 (the model's choice): in a state in which no operation runs, `exec i` is the acceptance of `i` and
then its operation. -/
def Obligations.ExecOnAnIdleBlockAcceptsFirst : Prop :=
  ∀ (i : Instr) (s : State), s.op = none → exec i s = exec i (acceptCommand i s)

/-- R94: WAIT reads STATUS, and is done exactly when the value read has DONE = 1. R233 step 2: the wait for
BUSY = 0 does the same, and is done exactly when the value read has BUSY = 0.
That a wait is one event, with one read a turn, and the two lists are the model's choice (log 7). -/
def Obligations.WaitsPollStatus : Prop :=
  (∀ (s : State) (rest : List HostEvent), s.hostQueue = .wait :: rest →
    hostTurn Config.build s =
      { s with
        hostQueue := if (statusWord s.status).getLsbD 1 then rest else s.hostQueue
        responses := .read .okay (.b4 (statusWord s.status)) :: s.responses }) ∧
  (∀ (s : State) (rest : List HostEvent), s.hostQueue = .waitIdle :: rest →
    hostTurn Config.build s =
      { s with
        hostQueue := if (statusWord s.status).getLsbD 0 then s.hostQueue else rest
        responses := .read .okay (.b4 (statusWord s.status)) :: s.responses })

/-! ### BAD_COMMAND and SIZE -/

/-- R116: both BAD rows, whatever the fields of the word: STATUS only, with BAD_COMMAND. A word of these rows that
is written while BUSY = 1 is not accepted: it sets WERR and reports nothing. -/
def Obligations.BadCommandCompletes : Prop :=
  (∀ (i : Instr) (s : State) (o : OpState), oprOf i = .bad → s.op = some o →
    exec i s = .next { s with
      status := { s.status with busy := false, done := true, result := .badCommand }
      op := none }) ∧
  (∀ (v : Word) (s : State), oprOf (decodeCmd v) = .bad → s.status.busy = true →
    busWrite Config.build 0x00000 (.b4 v) s =
      (.write .okay, { s with status := { s.status with werr := true } }))

/-- R182: SIZE completes with OK and the exact size, whatever the input. -/
def Obligations.SizeCompletes : Prop :=
  ∀ (s : State) (o : OpState), Started .size s o →
    exec .size s = .next { s with
      status := { s.status with busy := false, done := true, result := .ok }
      op := none
      sizeVal := BitVec.ofNat 32 (encSize Config.build (opInput o s)) }

/-- R181: the forms and the range of EncSize. -/
def Obligations.EncSizeFormsAndRange : Prop :=
  ∀ (p : Params) (payload : List Byte),
    encSize p payload = 2 + payload.length + reservedCount p payload ∧
    2 + payload.length ≤ encSize p payload ∧ encSize p payload ≤ 2 + 2 * payload.length ∧
    2 ≤ encSize p payload ∧
    (encSize p payload = 2 + 2 * payload.length ↔ ∀ b ∈ payload, isReserved p b = true) ∧
    (payload.length ≤ Config.build.inCap → encSize p payload ≤ 514)

/-- R183: SIZE and ENCODE of the same input give the same SIZE_VAL (N >= 1), and OUT_LEN is that value when
ENCODE gives OK. -/
def Obligations.SizeAgreesWithEncode : Prop :=
  ∀ (s s' : State) (o o' : OpState), Started .size s o → Started .encode s' o' → 1 ≤ o.n →
    opInput o s = opInput o' s' →
    ∃ t t', exec .size s = .next t ∧ exec .encode s' = .next t' ∧ t.sizeVal = t'.sizeVal ∧
      (t'.status.result = .ok → t'.outLen = t.sizeVal)

/-! ### ENCODE -/

/-- R201, R117: EMPTY_INPUT of ENCODE and DECODE, and that SIZE has no such check. -/
def Obligations.EmptyInputIsReported : Prop :=
  (∀ (i : Instr) (s : State) (o : OpState), i = .encode ∨ i = .decode → Started i s o → o.n = 0 →
    exec i s = .next { s with
      status := { s.status with busy := false, done := true, result := .emptyInput }
      op := none
      outLen := 0 }) ∧
  (∀ (s : State) (o : OpState), Started .size s o → o.n = 0 →
    exec .size s = .next { s with
      status := { s.status with busy := false, done := true, result := .ok }
      op := none
      sizeVal := 2 })

/-- R131: ENCODE, in each of its three cases. What is encoded is what the loop reads, `encodedInput`: the input
itself, but for bytes that were not written since reset, whose reads need not agree. For such bytes the limit that
`encodedInput` puts on the second read of each byte is the model's choice (log 4, DEDUCED; R133 fixes only the
total). -/
def Obligations.EncodeCompletes : Prop :=
  ∀ (s : State) (o : OpState), Started .encode s o →
    (o.n = 0 →
      exec .encode s = .next { s with
        status := { s.status with busy := false, done := true, result := .emptyInput }
        op := none
        outLen := 0 }) ∧
    (1 ≤ o.n → Config.build.outCap < encSize Config.build (opInput o s) →
      exec .encode s = .next { s with
        status := { s.status with busy := false, done := true, result := .overflow }
        op := none
        outLen := 0
        sizeVal := BitVec.ofNat 32 (encSize Config.build (opInput o s)) }) ∧
    (1 ≤ o.n → encSize Config.build (opInput o s) ≤ Config.build.outCap →
      exec .encode s = .next { s with
        status := { s.status with busy := false, done := true, result := .ok }
        op := none
        outLen := BitVec.ofNat 32 (encSize Config.build (opInput o s))
        sizeVal := BitVec.ofNat 32 (encSize Config.build (opInput o s))
        mem := memWriteList s.mem outBase (frame Config.build (encodedInput Config.build o s)) }) ∧
    (∀ x, Reads o s x → encodedInput Config.build o s = x)

/-- R133, R132: OUT_LEN is exactly EncSize(in), the frame is what the host reads, and the bytes of OUT_BUF
beyond it keep their values. That the frame is that of `encodedInput` is the model's choice for bytes not written
since reset (log 4, DEDUCED). -/
def Obligations.EncodeWritesExactlyTheFrame : Prop :=
  ∀ (s t : State) (o : OpState), Started .encode s o → exec .encode s = .next t →
    t.status.result = .ok →
    output t = frame Config.build (encodedInput Config.build o s) ∧
    (output t).length = encSize Config.build (opInput o s) ∧
    t.outLen.toNat = encSize Config.build (opInput o s) ∧ t.outLen = t.sizeVal ∧
    (∀ k, t.outLen.toNat ≤ k → outByte k t = outByte k s)

/-- R137: the output of ENCODE with result OK is a FRAME of the grammar of R88, with the wire forms of the
payload bytes in payload order. That the payload is `encodedInput` is the model's choice for bytes not written since
reset (log 4, DEDUCED). -/
def Obligations.EncodeOutputIsAFrameOfTheGrammar : Prop :=
  ∀ (s t : State) (o : OpState), Started .encode s o → exec .encode s = .next t →
    t.status.result = .ok →
    IsFrame Config.build (output t) ∧
    (output t).head? = some Config.build.startByte ∧
    (output t).getLast? = some Config.build.endByte ∧
    output t = Config.build.startByte :: (encodedInput Config.build o s).flatMap (wireForm Config.build) ++
      [Config.build.endByte]

/-- R135 item 7: START stands only at the first index of a frame, END only at the last, and the byte after an
ESCAPE is a code, for every legal choice of the constants. -/
def Obligations.SentinelsStandOnlyAtTheEndsOfAFrame : Prop :=
  ∀ (p : Params) (payload : List Byte) (k : Nat), p.Legal →
    ((frame p payload)[k]? = some p.startByte → k = 0) ∧
    ((frame p payload)[k]? = some p.endByte → k + 1 = (frame p payload).length) ∧
    ((frame p payload)[k]? = some p.escapeByte →
      ∃ c, (frame p payload)[k + 1]? = some c ∧ (reservedOf p c).isSome = true)

/-- R135 item 5, R205: OVERFLOW of ENCODE happens exactly when N and the reserved count together exceed
OUT_CAP - 2. -/
def Obligations.EncodeOverflowsExactlyBeyondCapacity : Prop :=
  ∀ (s : State) (o : OpState), Started .encode s o → 1 ≤ o.n →
    ∃ t, exec .encode s = .next t ∧
      (t.status.result = .overflow ↔ 254 < o.n + reservedCount Config.build (opInput o s)) ∧
      (t.status.result = .ok ↔ o.n + reservedCount Config.build (opInput o s) ≤ 254)

/-! ### DECODE -/

/-- R166: the state machine of R152 computes the same thing as the loop form, for every legal choice of the
parameters with TAIL_MODE = SKIP and FINAL_MODE = LAST_BYTE. Both take one and the same read of IN[N-1] in the final
check; where the byte was not written since reset it may differ from an earlier read (R35). -/
def Obligations.StateMachineIsTheLoopForm : Prop :=
  ∀ (p : Params) (s : State) (o : OpState), p.Legal → p.tailMode = .skip → p.finalMode = .lastByte →
    o = startOp .decode o.n o.draw o.wait → o.n ≤ p.inCap →
    runOp (decodeStep p) (stepBound o) o s = .next { s with
      status := { s.status with
        busy := false, done := true
        result := (decodeLoop p (opInput o s) (finalByte o s) s.mem).result }
      op := none
      outLen := BitVec.ofNat 32 (decodeLoop p (opInput o s) (finalByte o s) s.mem).outLen
      mem := (decodeLoop p (opInput o s) (finalByte o s) s.mem).mem }

/-- R152, R166: DECODE completes, with what the loop form gives, whether the read of IN[N-1] in the final check
agrees with an earlier one or not (R35, log 4). -/
def Obligations.DecodeCompletes : Prop :=
  ∀ (s : State) (o : OpState), Started .decode s o →
    exec .decode s = .next { s with
      status := { s.status with
        busy := false, done := true
        result := (decodeLoop Config.build (opInput o s) (finalByte o s) s.mem).result }
      op := none
      outLen := BitVec.ofNat 32 (decodeLoop Config.build (opInput o s) (finalByte o s) s.mem).outLen
      mem := (decodeLoop Config.build (opInput o s) (finalByte o s) s.mem).mem }

/-- R165: each step but the one to FINAL increases i by 1, i never exceeds N, FINAL ends the operation, DECODE
ends within N + 3 steps, and it never reads past the input (such a read would be a fault of the model). -/
def Obligations.DecodeEndsWithinNPlusThreeSteps : Prop :=
  ∀ (p : Params) (s : State) (o : OpState),
    (∀ o' s', scanStep p o s = .running o' s' →
      (o'.i = o.i + 1 ∨ (o'.i = o.i ∧ o.dstate = .body ∧ o'.dstate = .final)) ∧
      (o.i ≤ o.n → o'.i ≤ o.n)) ∧
    (o.dstate = .final → ∀ o' s', scanStep p o s ≠ .running o' s') ∧
    (o = startOp .decode o.n o.draw o.wait → o.n ≤ p.inCap →
      ∃ t, runOp (decodeStep p) (o.n + 3) o s = .next t)

/-- R202: NO_START_MARKER. -/
def Obligations.DecodeWithoutStartReportsIt : Prop :=
  ∀ (s : State) (o : OpState), Started .decode s o → 1 ≤ o.n →
    Config.build.startByte ∉ opInput o s →
    exec .decode s = .next { s with
      status := { s.status with busy := false, done := true, result := .noStartMarker }
      op := none
      outLen := 0 }

/-- R154, R209: under which condition DECODE gives each result, and that it gives no other. The last byte is the one
that the final check reads (R35). -/
def Obligations.DecodeResultConditions : Prop :=
  ∀ (s : State) (o : OpState), Started .decode s o →
    ∃ t, exec .decode s = .next t ∧
      (t.status.result = .emptyInput ↔ o.n = 0) ∧
      (t.status.result = .noStartMarker ↔ 1 ≤ o.n ∧ Config.build.startByte ∉ opInput o s) ∧
      (t.status.result = .ok →
        Config.build.startByte ∈ opInput o s ∧ finalByte o s = Config.build.endByte) ∧
      (t.status.result = .noEndMarker →
        Config.build.startByte ∈ opInput o s ∧ finalByte o s ≠ Config.build.endByte) ∧
      (∀ x, Reads o s x → 1 ≤ o.n → x.getLast? = some (finalByte o s)) ∧
      (t.status.result = .decodeError → Config.build.escapeByte ∈ opInput o s) ∧
      (t.status.result ∉ [.ok, .noEndMarker] → t.outLen = 0) ∧
      t.status.result ∈ [.emptyInput, .noStartMarker, .decodeError, .noEndMarker, .ok]

/-- R164: at most N - 2 bytes are appended (none when N = 1), and OVERFLOW needs OUT_CAP < IN_CAP - 2. -/
def Obligations.DecodeOverflowBounds : Prop :=
  ∀ (p : Params) (s t : State) (o : OpState), p.Legal → p.tailMode = .skip →
    o = startOp .decode o.n o.draw o.wait → o.n ≤ p.inCap →
    runOp (decodeStep p) (stepBound o) o s = .next t →
    t.outLen.toNat ≤ o.n - 2 ∧ (t.status.result = .overflow → p.outCap + 2 < p.inCap)

/-- R152 ("Written"), R154, R164: the frame of DECODE. SIZE_VAL, IN_LEN and WERR are unchanged, and so is every
byte of memory but the bytes OUT_BUF[0..N-2) that `append` can store to. -/
def Obligations.DecodeFrame : Prop :=
  ∀ (s t : State) (o : OpState), Started .decode s o → exec .decode s = .next t →
    t.sizeVal = s.sizeVal ∧ t.inLen = s.inLen ∧ t.status.werr = s.status.werr ∧
    t.hostQueue = s.hostQueue ∧ t.responses = s.responses ∧ t.durations = s.durations ∧
    t.draws = s.draws ∧ t.outDraw = s.outDraw ∧
    (∀ a, (∀ k, k < o.n - 2 → a ≠ outBase + k) → memLookup t.mem a = memLookup s.mem a)

/-- R204: an illegal escape pair that the scan reaches gives DECODE_ERROR and an empty payload, and the bytes
appended before it stay in OUT_BUF. `q` is what was decoded before the pair. -/
def Obligations.IllegalEscapePairIsADecodeError : Prop :=
  ∀ (s : State) (o : OpState) (q rest : List Byte) (c : Byte), Started .decode s o →
    opInput o s = Config.build.startByte :: q.flatMap (wireForm Config.build) ++
      Config.build.escapeByte :: c :: rest →
    reservedOf Config.build c = none →
    ∃ t, exec .decode s = .next t ∧ t.status.result = .decodeError ∧ t.outLen = 0 ∧
      (∀ k (h : k < q.length), outByte k t = q[k])

/-- R158, R159: an ESCAPE as the last byte is not scanned, and an ESCAPE before the last byte takes it as its
code; with a code the reserved byte is appended and the result is NO_END_MARKER. Every read gives the
input (`Reads`), as it does where the host has written it (R35). -/
def Obligations.EscapeAtTheEndOfTheInput : Prop :=
  ∀ (s : State) (o : OpState) (q : List Byte), Started .decode s o →
    (Reads o s (Config.build.startByte :: q.flatMap (wireForm Config.build) ++
        [Config.build.escapeByte]) →
      ∃ t, exec .decode s = .next t ∧ t.status.result = .noEndMarker ∧ output t = q) ∧
    (∀ c r, Reads o s (Config.build.startByte :: q.flatMap (wireForm Config.build) ++
        [Config.build.escapeByte, c]) → reservedOf Config.build c = some r →
      ∃ t, exec .decode s = .next t ∧ t.status.result = .noEndMarker ∧ output t = q ++ [r])

/-- R161: an END inside the scanned range stops the scan, and the last input byte decides the result, as the
final check reads it (R35). -/
def Obligations.EarlyEndStopsTheScan : Prop :=
  ∀ (s : State) (o : OpState) (q rest : List Byte), Started .decode s o → rest ≠ [] →
    opInput o s = Config.build.startByte :: q.flatMap (wireForm Config.build) ++
      Config.build.endByte :: rest →
    (∃ t, exec .decode s = .next t ∧ output t = q ∧
      t.status.result =
        if finalByte o s = Config.build.endByte then .ok else .noEndMarker) ∧
    (opInputAgain o s = opInput o s → rest.getLast? = some (finalByte o s))

/-- R162: the bytes before the first START have no effect on what DECODE reports and returns. The last premise
says that both final checks read the same byte, as they do of written bytes; of others two reads need not agree
(R35). -/
def Obligations.BytesBeforeStartAreSkipped : Prop :=
  ∀ (s s' : State) (o o' : OpState) (x : List Byte), Started .decode s o → Started .decode s' o' →
    Config.build.startByte ∉ x →
    (opInput o' s').head? = some Config.build.startByte → opInput o s = x ++ opInput o' s' →
    finalByte o s = finalByte o' s' →
    ∃ t t', exec .decode s = .next t ∧ exec .decode s' = .next t' ∧
      t.status.result = t'.status.result ∧ output t = output t'

/-- R160: every input of length 1 and 2, where every read gives it (`Reads`, R35). -/
def Obligations.MinimalInputs : Prop :=
  ∀ (s : State) (o : OpState), Started .decode s o →
    (∀ b, Reads o s [b] → ∃ t, exec .decode s = .next t ∧ output t = [] ∧
      t.status.result = if b = Config.build.startByte then .noEndMarker else .noStartMarker) ∧
    (∀ b c, Reads o s [b, c] → ∃ t, exec .decode s = .next t ∧ output t = [] ∧
      t.status.result =
        if b = Config.build.startByte then
          (if c = Config.build.endByte then .ok else .noEndMarker)
        else if c = Config.build.startByte then .noEndMarker
        else .noStartMarker)

/-- R167 for the machine: an ENCODE with result OK in one state, and a DECODE in another whose input is what the
host read out of OUT_BUF, give the payload back: what was encoded, which is the input of the ENCODE wherever its
reads agree. That what was encoded is `encodedInput` is the model's choice for bytes not written since reset (log 4,
DEDUCED). -/
def Obligations.EncodeThenDecodeRoundTrip : Prop :=
  ∀ (s t s' : State) (o o' : OpState), Started .encode s o → exec .encode s = .next t →
    t.status.result = .ok → Started .decode s' o' → Reads o' s' (output t) →
    ∃ t', exec .decode s' = .next t' ∧ t'.status.result = .ok ∧
      output t' = encodedInput Config.build o s ∧ ∀ x, Reads o s x → output t' = x

/-- R168: resynchronisation, its condition, and the two cases in which it does not hold, for an input that every read
gives (`Reads`, R35). -/
def Obligations.ResynchronisationOnTheLatestStart : Prop :=
  ∀ (s : State) (o : OpState) (x payload : List Byte), Started .decode s o → 1 ≤ payload.length →
    Reads o s (x ++ frame Config.build payload) →
    ((∀ pre post, x = pre ++ Config.build.startByte :: post → Config.build.startByte ∉ pre →
        Config.build.endByte ∉ post ∧ Config.build.escapeByte ∉ post) →
      ∃ t, exec .decode s = .next t ∧ t.status.result = .ok ∧ output t = payload) ∧
    (x = [Config.build.startByte, 0x10, Config.build.endByte] →
      ∃ t, exec .decode s = .next t ∧ t.status.result = .ok ∧ output t = [0x10]) ∧
    (x = [Config.build.startByte, Config.build.escapeByte, 0xFF] →
      ∃ t, exec .decode s = .next t ∧ t.status.result = .decodeError)

/-- R169: truncation, for an input that every read gives (`Reads`, R35). -/
def Obligations.TruncatedFrame : Prop :=
  ∀ (s : State) (o : OpState) (payload : List Byte) (b : Byte), Started .decode s o →
    payload.getLast? = some b → Reads o s (frame Config.build payload).dropLast →
    ∃ t, exec .decode s = .next t ∧ t.status.result = .noEndMarker ∧
      output t = if isReserved Config.build b then payload else payload.dropLast

/-- 93_implementation_defined.md I1: with this hardware's capacities the two readings of the last input byte
give the same result code for every input, and the same state but for NO_END_MARKER wherever the two reads of
the last byte agree (log 1, log 4). -/
def Obligations.TailModeChangesNoResultCode : Prop :=
  ∀ (s : State) (o : OpState), Started .decode s o →
    ∃ t t', exec .decode s = .next t ∧
      runOp (decodeStep { Config.build with tailMode := .literal }) (stepBound o) o s = .next t' ∧
      t.status.result = t'.status.result ∧ t.sizeVal = t'.sizeVal ∧ t.inLen = t'.inLen ∧
      (t.status.result ≠ .noEndMarker → opInputAgain o s = opInput o s → t = t')

/-! ### What commands leave unchanged, and what their results depend on -/

/-- R61, R113, R115: no command changes IN_BUF, IN_LEN, WERR, OUT_BUF beyond OUT_CAP, or anything of the
platform's side; SIZE and the BAD commands change no byte and no OUT_LEN; DECODE and the BAD commands do not
change SIZE_VAL. For every internal state of the operation, also one half run. -/
def Obligations.CommandsLeaveTheRestUnchanged : Prop :=
  ∀ (i : Instr) (s t : State) (o : OpState), s.op = some o → exec i s = .next t →
    t.inLen = s.inLen ∧ t.status.werr = s.status.werr ∧ t.hostQueue = s.hostQueue ∧
    t.responses = s.responses ∧ t.durations = s.durations ∧ t.draws = s.draws ∧
    t.outDraw = s.outDraw ∧
    (∀ a, (∀ k, k < Config.build.outCap → a ≠ outBase + k) →
      memLookup t.mem a = memLookup s.mem a) ∧
    (oprOf i = .size ∨ oprOf i = .bad → t.mem = s.mem ∧ t.outLen = s.outLen) ∧
    (oprOf i = .decode ∨ oprOf i = .bad → t.sizeVal = s.sizeVal)

/-- R39: what an operation reports and returns is a function of the command and what it reads of its input
only, in the first and in the second read of each byte (R35). -/
def Obligations.ResultsDependOnTheInputOnly : Prop :=
  ∀ (i : Instr) (s s' t t' : State) (o o' : OpState), Started i s o → Started i s' o' →
    opInput o s = opInput o' s' → opInputAgain o s = opInputAgain o' s' →
    exec i s = .next t → exec i s' = .next t' →
    t.status.result = t'.status.result ∧
    (oprOf i = .encode ∨ oprOf i = .decode → output t = output t') ∧
    (oprOf i = .size ∨ (oprOf i = .encode ∧ 1 ≤ o.n) → t.sizeVal = t'.sizeVal)

/-- R113: an internal step of the running operation changes nothing that its completion leaves. -/
def Obligations.InternalProgressIsInvisible : Prop :=
  ∀ (s s' : State) (o o' : OpState), s.op = some o →
    microStep Config.build o s = .running o' s' →
    exec o.opr { s' with op := some o' } = exec o.opr s

/-- R64, R66, R112, R114: a running operation completes after its duration, and nothing the host does
meanwhile, short of a reset, changes what it leaves. That the duration is a number of host turns is the model's
choice (log 3). -/
def Obligations.HostTrafficCannotChangeARunningOperation : Prop :=
  ∀ (s : State) (o : OpState), Invariant Config.build s → s.op = some o →
    HostEvent.rst ∉ s.hostQueue →
    ∃ t u, RunsTo (o.wait + 1) s t ∧ exec o.opr s = .next u ∧
      t.op = none ∧ t.status.done = true ∧ t.status.busy = false ∧
      t.status.result = u.status.result ∧ t.status.result ≠ .none ∧
      t.outLen = u.outLen ∧ t.sizeVal = u.sizeVal ∧ t.inLen = u.inLen ∧ t.mem = u.mem

/-! ### The host bus and the registers -/

/-- R32, R33, R34: the hardwired registers read as the rules say at all times, and a write of any width answers
ERR with no effect. -/
def Obligations.HardwiredRegisters : Prop :=
  ∀ s : State,
    busRead Config.build 0x00014 .w4 s = (.read .okay (.b4 0x001ECDAB), s) ∧
    busRead Config.build 0x00018 .w4 s = (.read .okay (.b4 0x00020301), s) ∧
    busRead Config.build 0x0001C .w4 s = (.read .okay (.b4 0x01000100), s) ∧
    (∀ d, busWrite Config.build 0x00014 d s = (.write .err, s) ∧
      busWrite Config.build 0x00018 d s = (.write .err, s) ∧
      busWrite Config.build 0x0001C d s = (.write .err, s))

/-- R23, R29 to R31, R58: CMD reads 0, IN_LEN and STATUS read exactly at all times, and OUT_LEN and SIZE_VAL
exactly while BUSY = 0; while BUSY = 1 these two read as a free value, with OKAY, and only the model's counter of draws
moves (log 6, log 13). -/
def Obligations.RegisterReads : Prop :=
  ∀ s : State,
    busRead Config.build 0x00000 .w4 s = (.read .okay (.b4 0), s) ∧
    busRead Config.build 0x00004 .w4 s = (.read .okay (.b4 (statusWord s.status)), s) ∧
    busRead Config.build 0x00008 .w4 s = (.read .okay (.b4 s.inLen), s) ∧
    (s.status.busy = false →
      busRead Config.build 0x0000C .w4 s = (.read .okay (.b4 s.outLen), s) ∧
      busRead Config.build 0x00010 .w4 s = (.read .okay (.b4 s.sizeVal), s)) ∧
    (s.status.busy = true → ∃ v w,
      busRead Config.build 0x0000C .w4 s = (.read .okay (.b4 v), { s with draws := s.draws + 1 }) ∧
      busRead Config.build 0x00010 .w4 s = (.read .okay (.b4 w), { s with draws := s.draws + 1 }))

/-- R86: the layout of the STATUS word, and its value in each situation with WERR = 0 and with WERR = 1. -/
def Obligations.StatusWordLayout : Prop :=
  (∀ st : Status,
    (statusWord st).getLsbD 0 = st.busy ∧ (statusWord st).getLsbD 1 = st.done ∧
    (statusWord st).getLsbD 2 = st.werr ∧ (statusWord st).getLsbD 3 = false ∧
    (statusWord st).extractLsb' 4 4 = resultNumber st.result ∧
    (statusWord st).extractLsb' 8 24 = 0) ∧
  statusWord State.reset.status = 0x00000000 ∧
  (∀ st : Status, st.werr = false → statusWord (acceptStatus st) = 0x00000001 ∧
    statusWord (finishStatus .ok st) = 0x00000012 ∧
    statusWord (finishStatus .emptyInput st) = 0x00000022 ∧
    statusWord (finishStatus .noStartMarker st) = 0x00000032 ∧
    statusWord (finishStatus .noEndMarker st) = 0x00000042 ∧
    statusWord (finishStatus .decodeError st) = 0x00000052 ∧
    statusWord (finishStatus .overflow st) = 0x00000062 ∧
    statusWord (finishStatus .badCommand st) = 0x00000072) ∧
  (∀ st : Status, st.werr = true →
    statusWord st = statusWord { st with werr := false } + 0x00000004)

/-- R24: a write to STATUS answers OKAY, also while BUSY = 1, and its only effect is that bit 2 clears WERR. -/
def Obligations.StatusWriteClearsWerrOnly : Prop :=
  ∀ (s : State) (v : Word),
    busWrite Config.build 0x00004 (.b4 v) s = (.write .okay,
      { s with status := { s.status with werr := s.status.werr && !v.getLsbD 2 } })

/-- R29: the three cases of a write to IN_LEN. -/
def Obligations.InLenWrite : Prop :=
  ∀ (s : State) (v : Word),
    busWrite Config.build 0x00008 (.b4 v) s = (.write .okay,
      if s.status.busy = true then { s with status := { s.status with werr := true } }
      else if 256 < v.toNat then { s with status := { s.status with werr := true } }
      else { s with inLen := v })

/-- R52, R59: in the register region an access that is not 4 bytes wide or not 4-byte aligned answers ERR with
no effect, and so does a write to OUT_LEN or SIZE_VAL. -/
def Obligations.IllegalRegisterAccesses : Prop :=
  ∀ (s : State) (off : Offset), off.toNat < 0x20 →
    (∀ n, n ≠ .w4 ∨ off.toNat % 4 ≠ 0 →
      busRead Config.build off n s = (.read .err (zeroData n), s)) ∧
    (∀ d, (∀ v, d ≠ .b4 v) ∨ off.toNat % 4 ≠ 0 ∨ off = 0x0000C ∨ off = 0x00010 →
      busWrite Config.build off d s = (.write .err, s))

/-- R53, R35: the IN_BUF window. A byte written since reset reads exactly, also while BUSY = 1, and by an operation
at each of its reads; another reads as a free value, at the draw of that read (log 4). -/
def Obligations.InBufWindow : Prop :=
  ∀ (s : State) (k : Nat), k < 256 →
    (∀ b, memLookup s.mem (0x10000 + k) = some b →
      busRead Config.build (BitVec.ofNat 18 (0x10000 + k)) .w1 s = (.read .okay (.b1 b), s)) ∧
    (memLookup s.mem (0x10000 + k) = none → ∃ b,
      busRead Config.build (BitVec.ofNat 18 (0x10000 + k)) .w1 s =
        (.read .okay (.b1 b), { s with draws := s.draws + 1 })) ∧
    (∀ b, memLookup s.mem (0x10000 + k) = some b → ∀ o, inByte o.draw k s = b ∧ againByte o k s = b) ∧
    (memLookup s.mem (0x10000 + k) = none → ∀ o, inByte o.draw k s = Config.freeInByte o.draw k ∧
      againByte o k s = Config.freeInByte (o.draw + 1) k) ∧
    (∀ b, busWrite Config.build (BitVec.ofNat 18 (0x10000 + k)) (.b1 b) s = (.write .okay,
      if s.status.busy = true then { s with status := { s.status with werr := true } }
      else { s with mem := memWrite s.mem (0x10000 + k) b })) ∧
    (∀ n, n ≠ .w1 →
      busRead Config.build (BitVec.ofNat 18 (0x10000 + k)) n s = (.read .err (zeroData n), s)) ∧
    (∀ d, (∀ b, d ≠ .b1 b) →
      busWrite Config.build (BitVec.ofNat 18 (0x10000 + k)) d s = (.write .err, s))

/-- R54, R58: the OUT_BUF window. While BUSY = 1 the value read is free, and only the model's counter of draws moves
(log 6, log 13). -/
def Obligations.OutBufWindow : Prop :=
  ∀ (s : State) (k : Nat), k < 256 →
    (s.status.busy = false →
      busRead Config.build (BitVec.ofNat 18 (0x20000 + k)) .w1 s =
        (.read .okay (.b1 (outByte k s)), s)) ∧
    (s.status.busy = true → ∃ b,
      busRead Config.build (BitVec.ofNat 18 (0x20000 + k)) .w1 s =
        (.read .okay (.b1 b), { s with draws := s.draws + 1 })) ∧
    (∀ n, n ≠ .w1 →
      busRead Config.build (BitVec.ofNat 18 (0x20000 + k)) n s = (.read .err (zeroData n), s)) ∧
    (∀ d, busWrite Config.build (BitVec.ofNat 18 (0x20000 + k)) d s = (.write .err, s))

/-- R55: every access to a reserved offset answers ERR, with read data 0 and no effect, whatever its width. -/
def Obligations.ReservedOffsetsAnswerErr : Prop :=
  ∀ (s : State) (off : Offset),
    (0x20 ≤ off.toNat ∧ off.toNat < 0x10000) ∨ (0x10100 ≤ off.toNat ∧ off.toNat < 0x20000) ∨
      0x20100 ≤ off.toNat →
    (∀ n, busRead Config.build off n s = (.read .err (zeroData n), s)) ∧
    (∀ d, busWrite Config.build off d s = (.write .err, s))

/-- R57: which writes set WERR. Each of the four answers OKAY and changes nothing but WERR, and no other write
sets it. -/
def Obligations.IgnoredWritesAndOnlyTheySetWerr : Prop :=
  ∀ (s : State) (off : Offset) (d : BusData),
    (IgnoredWrite s off d → busWrite Config.build off d s =
      (.write .okay, { s with status := { s.status with werr := true } })) ∧
    (¬ IgnoredWrite s off d → s.status.werr = false →
      (busWrite Config.build off d s).2.status.werr = false)

/-- R50, R60, R207: a read has no side effect: it changes no register, no byte and no operation (the model's
counter of free values may move, log 13); a response ERR changes no state at all, and its read data is 0. -/
def Obligations.ReadsAndErrResponsesChangeNothing : Prop :=
  ∀ (s : State) (off : Offset),
    (∀ n, (busRead Config.build off n s).2 = s ∨
      (busRead Config.build off n s).2 = { s with draws := s.draws + 1 }) ∧
    (∀ n data t, busRead Config.build off n s = (.read .err data, t) → t = s ∧ data = zeroData n) ∧
    (∀ d t, busWrite Config.build off d s = (.write .err, t) → t = s)

/-! ### Reset, and whole-machine rules -/

/-- R40: the reset value of every piece of state the spec gives one, as the host reads it too. -/
def Obligations.ResetValues : Prop :=
  State.reset.status = { busy := false, done := false, werr := false, result := .none } ∧
  statusWord State.reset.status = 0 ∧ State.reset.inLen = 0 ∧ State.reset.outLen = 0 ∧
  State.reset.sizeVal = 0 ∧ State.reset.op = none ∧
  (busRead Config.build 0x00000 .w4 State.reset).1 = .read .okay (.b4 0) ∧
  (busRead Config.build 0x00014 .w4 State.reset).1 = .read .okay (.b4 0x001ECDAB) ∧
  (busRead Config.build 0x00018 .w4 State.reset).1 = .read .okay (.b4 0x00020301) ∧
  (busRead Config.build 0x0001C .w4 State.reset).1 = .read .okay (.b4 0x01000100) ∧
  (∀ a, memLookup State.reset.mem a = none)

/-- R230, R231: RST at any time, also while an operation runs, leaves the reset values; a running operation is
abandoned and DONE stays 0. That RST is one event at a turn of the host is the model's choice (log 8), and so are the
turns that a running operation has left (log 3). -/
def Obligations.RstAbandonsTheRunningOperation : Prop :=
  ∀ (s : State) (rest : List HostEvent), s.hostQueue = .rst :: rest →
    (∀ o, s.op = some o → 1 ≤ o.wait) →
    ∃ t, step s = .next t ∧ t.op = none ∧ t.status = State.reset.status ∧ t.inLen = 0 ∧
      t.outLen = 0 ∧ t.sizeVal = 0 ∧ t.mem = [] ∧ t.hostQueue = rest

/-- R25: only the acceptance of a command, a completion and reset write BUSY. At which step the completion comes is
the model's choice (log 2, log 3). -/
def Obligations.OnlyAcceptanceCompletionAndResetWriteBusy : Prop :=
  ∀ s t : State, Invariant Config.build s → step s = .next t → t.status.busy ≠ s.status.busy →
    (s.status.busy = false ∧ ∃ v, s.hostQueue.head? = some (.write 0x00000 (.b4 v))) ∨
    (s.status.busy = true ∧ (∃ o, s.op = some o ∧ o.wait = 0) ∧ t.status.done = true) ∨
    (s.status.busy = true ∧ s.hostQueue.head? = some .rst)

/-- R27: a step sets WERR only where it is a host write that the block ignores, and clears it only where it is a
host write of 1 to STATUS bit 2, or reset. Acceptance and completion do not change it. -/
def Obligations.WerrRecordsIgnoredWritesAndIsSticky : Prop :=
  ∀ s t : State, step s = .next t →
    (s.status.werr = true → t.status.werr = false →
      (∃ v, s.hostQueue.head? = some (.write 0x00004 (.b4 v)) ∧ v.getLsbD 2 = true) ∨
      s.hostQueue.head? = some .rst) ∧
    (s.status.werr = false → t.status.werr = true →
      ∃ off d, s.hostQueue.head? = some (.write off d) ∧ IgnoredWrite s off d)

/-- R35, R36: a byte of IN_BUF changes only by a host write to it while BUSY = 0, or by reset; a byte of OUT_BUF
only while an operation runs, or by reset. -/
def Obligations.WhoWritesTheBuffers : Prop :=
  ∀ (s t : State) (k : Nat), Invariant Config.build s → step s = .next t → k < 256 →
    (memLookup t.mem (0x10000 + k) ≠ memLookup s.mem (0x10000 + k) →
      (s.status.busy = false ∧
        ∃ b, s.hostQueue.head? = some (.write (BitVec.ofNat 18 (0x10000 + k)) (.b1 b))) ∨
      s.hostQueue.head? = some .rst) ∧
    (memLookup t.mem (0x20000 + k) ≠ memLookup s.mem (0x20000 + k) →
      s.status.busy = true ∨ s.hostQueue.head? = some .rst)

/-- The state after reset satisfies the invariant. -/
def Obligations.ResetSatisfiesTheInvariant : Prop := Invariant Config.build State.reset

/-- Every step keeps the invariant: memory stays canonical and inside the buffers, the registers stay in their
legal ranges (R29 to R31), the STATUS flags agree (R25, R26, R28), and so does a running operation (R38). -/
def Obligations.EveryStepKeepsTheInvariant : Prop :=
  ∀ s t : State, Invariant Config.build s → step s = .next t → Invariant Config.build t

/-- R114, R200: from every state that satisfies the invariant a step answers: no fault, no refusal. The faults are the
model's own guards (log 15). -/
def Obligations.EveryStepAnswers : Prop :=
  ∀ s : State, Invariant Config.build s → ∃ t, step s = .next t

/-- R26, R28: whatever the platform does after reset, and however long operations take, the block never stops,
BUSY and DONE are never 1 together, and RESULT is not NONE exactly when DONE = 1. The queue and the list
of durations are the model's own (log 3, log 7). -/
def Obligations.EveryRunFromResetIsSafe : Prop :=
  ∀ (queue : List HostEvent) (durations : List Nat),
    Safe { State.reset with hostQueue := queue, durations := durations } ∧
    (∀ k t, RunsTo k { State.reset with hostQueue := queue, durations := durations } t →
      ¬ (t.status.busy = true ∧ t.status.done = true) ∧
      (t.status.result ≠ .none ↔ t.status.done = true))
end

