-- ==== Sys2Proof/Laws/State.lean ====
section
/-! SUPPORT. One lemma per field per update of State, so that no later proof unfolds a record update. -/

namespace Sys2Proof.Machine

@[simp] theorem finish_status (c : ResultCode) (s : State) : (finish c s).status = finishStatus c s.status := rfl
@[simp] theorem finish_inLen (c : ResultCode) (s : State) : (finish c s).inLen = s.inLen := rfl
@[simp] theorem finish_outLen (c : ResultCode) (s : State) : (finish c s).outLen = s.outLen := rfl
@[simp] theorem finish_sizeVal (c : ResultCode) (s : State) : (finish c s).sizeVal = s.sizeVal := rfl
@[simp] theorem finish_mem (c : ResultCode) (s : State) : (finish c s).mem = s.mem := rfl
@[simp] theorem finish_op (c : ResultCode) (s : State) : (finish c s).op = none := rfl
@[simp] theorem finish_hostQueue (c : ResultCode) (s : State) : (finish c s).hostQueue = s.hostQueue := rfl
@[simp] theorem finish_responses (c : ResultCode) (s : State) : (finish c s).responses = s.responses := rfl
@[simp] theorem finish_durations (c : ResultCode) (s : State) : (finish c s).durations = s.durations := rfl
@[simp] theorem finish_draws (c : ResultCode) (s : State) : (finish c s).draws = s.draws := rfl
@[simp] theorem finish_outDraw (c : ResultCode) (s : State) : (finish c s).outDraw = s.outDraw := rfl

@[simp] theorem acceptCommand_status (i : Instr) (s : State) : (acceptCommand i s).status = acceptStatus s.status := rfl
@[simp] theorem acceptCommand_inLen (i : Instr) (s : State) : (acceptCommand i s).inLen = s.inLen := rfl
@[simp] theorem acceptCommand_outLen (i : Instr) (s : State) : (acceptCommand i s).outLen = s.outLen := rfl
@[simp] theorem acceptCommand_sizeVal (i : Instr) (s : State) : (acceptCommand i s).sizeVal = s.sizeVal := rfl
@[simp] theorem acceptCommand_mem (i : Instr) (s : State) : (acceptCommand i s).mem = s.mem := rfl
@[simp] theorem acceptCommand_op (i : Instr) (s : State) : (acceptCommand i s).op = some (acceptedOp i s) := rfl
@[simp] theorem acceptCommand_hostQueue (i : Instr) (s : State) : (acceptCommand i s).hostQueue = s.hostQueue := rfl
@[simp] theorem acceptCommand_responses (i : Instr) (s : State) : (acceptCommand i s).responses = s.responses := rfl
@[simp] theorem acceptCommand_durations (i : Instr) (s : State) : (acceptCommand i s).durations = s.durations.tail := rfl
@[simp] theorem acceptCommand_draws (i : Instr) (s : State) : (acceptCommand i s).draws = s.draws + 2 := rfl
@[simp] theorem acceptCommand_outDraw (i : Instr) (s : State) : (acceptCommand i s).outDraw = s.outDraw := rfl

@[simp] theorem setOutLen_status (v : Nat) (s : State) : (setOutLen v s).status = s.status := rfl
@[simp] theorem setOutLen_inLen (v : Nat) (s : State) : (setOutLen v s).inLen = s.inLen := rfl
@[simp] theorem setOutLen_outLen (v : Nat) (s : State) : (setOutLen v s).outLen = BitVec.ofNat 32 v := rfl
@[simp] theorem setOutLen_sizeVal (v : Nat) (s : State) : (setOutLen v s).sizeVal = s.sizeVal := rfl
@[simp] theorem setOutLen_mem (v : Nat) (s : State) : (setOutLen v s).mem = s.mem := rfl
@[simp] theorem setOutLen_op (v : Nat) (s : State) : (setOutLen v s).op = s.op := rfl
@[simp] theorem setOutLen_hostQueue (v : Nat) (s : State) : (setOutLen v s).hostQueue = s.hostQueue := rfl
@[simp] theorem setOutLen_responses (v : Nat) (s : State) : (setOutLen v s).responses = s.responses := rfl
@[simp] theorem setOutLen_durations (v : Nat) (s : State) : (setOutLen v s).durations = s.durations := rfl
@[simp] theorem setOutLen_draws (v : Nat) (s : State) : (setOutLen v s).draws = s.draws := rfl
@[simp] theorem setOutLen_outDraw (v : Nat) (s : State) : (setOutLen v s).outDraw = s.outDraw := rfl

@[simp] theorem setSizeVal_status (v : Nat) (s : State) : (setSizeVal v s).status = s.status := rfl
@[simp] theorem setSizeVal_inLen (v : Nat) (s : State) : (setSizeVal v s).inLen = s.inLen := rfl
@[simp] theorem setSizeVal_outLen (v : Nat) (s : State) : (setSizeVal v s).outLen = s.outLen := rfl
@[simp] theorem setSizeVal_sizeVal (v : Nat) (s : State) : (setSizeVal v s).sizeVal = BitVec.ofNat 32 v := rfl
@[simp] theorem setSizeVal_mem (v : Nat) (s : State) : (setSizeVal v s).mem = s.mem := rfl
@[simp] theorem setSizeVal_op (v : Nat) (s : State) : (setSizeVal v s).op = s.op := rfl
@[simp] theorem setSizeVal_hostQueue (v : Nat) (s : State) : (setSizeVal v s).hostQueue = s.hostQueue := rfl
@[simp] theorem setSizeVal_responses (v : Nat) (s : State) : (setSizeVal v s).responses = s.responses := rfl
@[simp] theorem setSizeVal_durations (v : Nat) (s : State) : (setSizeVal v s).durations = s.durations := rfl
@[simp] theorem setSizeVal_draws (v : Nat) (s : State) : (setSizeVal v s).draws = s.draws := rfl
@[simp] theorem setSizeVal_outDraw (v : Nat) (s : State) : (setSizeVal v s).outDraw = s.outDraw := rfl

@[simp] theorem writeOut_status (k : Nat) (v : Byte) (s : State) : (writeOut k v s).status = s.status := rfl
@[simp] theorem writeOut_inLen (k : Nat) (v : Byte) (s : State) : (writeOut k v s).inLen = s.inLen := rfl
@[simp] theorem writeOut_outLen (k : Nat) (v : Byte) (s : State) : (writeOut k v s).outLen = s.outLen := rfl
@[simp] theorem writeOut_sizeVal (k : Nat) (v : Byte) (s : State) : (writeOut k v s).sizeVal = s.sizeVal := rfl
@[simp] theorem writeOut_mem (k : Nat) (v : Byte) (s : State) : (writeOut k v s).mem = memWrite s.mem (outBase + k) v := rfl
@[simp] theorem writeOut_op (k : Nat) (v : Byte) (s : State) : (writeOut k v s).op = s.op := rfl
@[simp] theorem writeOut_hostQueue (k : Nat) (v : Byte) (s : State) : (writeOut k v s).hostQueue = s.hostQueue := rfl
@[simp] theorem writeOut_responses (k : Nat) (v : Byte) (s : State) : (writeOut k v s).responses = s.responses := rfl
@[simp] theorem writeOut_durations (k : Nat) (v : Byte) (s : State) : (writeOut k v s).durations = s.durations := rfl
@[simp] theorem writeOut_draws (k : Nat) (v : Byte) (s : State) : (writeOut k v s).draws = s.draws := rfl
@[simp] theorem writeOut_outDraw (k : Nat) (v : Byte) (s : State) : (writeOut k v s).outDraw = s.outDraw := rfl

@[simp] theorem setWerr_status (s : State) : (setWerr s).status = { s.status with werr := true } := rfl
@[simp] theorem setWerr_inLen (s : State) : (setWerr s).inLen = s.inLen := rfl
@[simp] theorem setWerr_outLen (s : State) : (setWerr s).outLen = s.outLen := rfl
@[simp] theorem setWerr_sizeVal (s : State) : (setWerr s).sizeVal = s.sizeVal := rfl
@[simp] theorem setWerr_mem (s : State) : (setWerr s).mem = s.mem := rfl
@[simp] theorem setWerr_op (s : State) : (setWerr s).op = s.op := rfl
@[simp] theorem setWerr_hostQueue (s : State) : (setWerr s).hostQueue = s.hostQueue := rfl
@[simp] theorem setWerr_responses (s : State) : (setWerr s).responses = s.responses := rfl
@[simp] theorem setWerr_durations (s : State) : (setWerr s).durations = s.durations := rfl
@[simp] theorem setWerr_draws (s : State) : (setWerr s).draws = s.draws := rfl
@[simp] theorem setWerr_outDraw (s : State) : (setWerr s).outDraw = s.outDraw := rfl

@[simp] theorem nextDraw_status (s : State) : (nextDraw s).status = s.status := rfl
@[simp] theorem nextDraw_inLen (s : State) : (nextDraw s).inLen = s.inLen := rfl
@[simp] theorem nextDraw_outLen (s : State) : (nextDraw s).outLen = s.outLen := rfl
@[simp] theorem nextDraw_sizeVal (s : State) : (nextDraw s).sizeVal = s.sizeVal := rfl
@[simp] theorem nextDraw_mem (s : State) : (nextDraw s).mem = s.mem := rfl
@[simp] theorem nextDraw_op (s : State) : (nextDraw s).op = s.op := rfl
@[simp] theorem nextDraw_hostQueue (s : State) : (nextDraw s).hostQueue = s.hostQueue := rfl
@[simp] theorem nextDraw_responses (s : State) : (nextDraw s).responses = s.responses := rfl
@[simp] theorem nextDraw_durations (s : State) : (nextDraw s).durations = s.durations := rfl
@[simp] theorem nextDraw_draws (s : State) : (nextDraw s).draws = s.draws + 1 := rfl
@[simp] theorem nextDraw_outDraw (s : State) : (nextDraw s).outDraw = s.outDraw := rfl

@[simp] theorem resetBlock_status (s : State) : (resetBlock s).status = Status.reset := rfl
@[simp] theorem resetBlock_inLen (s : State) : (resetBlock s).inLen = 0 := rfl
@[simp] theorem resetBlock_outLen (s : State) : (resetBlock s).outLen = 0 := rfl
@[simp] theorem resetBlock_sizeVal (s : State) : (resetBlock s).sizeVal = 0 := rfl
@[simp] theorem resetBlock_mem (s : State) : (resetBlock s).mem = [] := rfl
@[simp] theorem resetBlock_op (s : State) : (resetBlock s).op = none := rfl
@[simp] theorem resetBlock_hostQueue (s : State) : (resetBlock s).hostQueue = s.hostQueue := rfl
@[simp] theorem resetBlock_responses (s : State) : (resetBlock s).responses = s.responses := rfl
@[simp] theorem resetBlock_durations (s : State) : (resetBlock s).durations = s.durations := rfl
@[simp] theorem resetBlock_draws (s : State) : (resetBlock s).draws = s.draws + 1 := rfl
@[simp] theorem resetBlock_outDraw (s : State) : (resetBlock s).outDraw = s.draws + 1 := rfl

@[simp] theorem finishStatus_busy (c : ResultCode) (st : Status) : (finishStatus c st).busy = false := rfl
@[simp] theorem finishStatus_done (c : ResultCode) (st : Status) : (finishStatus c st).done = true := rfl
@[simp] theorem finishStatus_werr (c : ResultCode) (st : Status) : (finishStatus c st).werr = st.werr := rfl
@[simp] theorem finishStatus_result (c : ResultCode) (st : Status) : (finishStatus c st).result = c := rfl
@[simp] theorem acceptStatus_busy (st : Status) : (acceptStatus st).busy = true := rfl
@[simp] theorem acceptStatus_done (st : Status) : (acceptStatus st).done = false := rfl
@[simp] theorem acceptStatus_werr (st : Status) : (acceptStatus st).werr = st.werr := rfl
@[simp] theorem acceptStatus_result (st : Status) : (acceptStatus st).result = .none := rfl

@[simp] theorem writeStatus_status (v : Word) (s : State) :
    (writeStatus v s).status =
      if v.getLsbD 2 then { s.status with werr := false } else s.status := by
  unfold writeStatus; split <;> rfl
@[simp] theorem writeStatus_inLen (v : Word) (s : State) : (writeStatus v s).inLen = s.inLen := by
  unfold writeStatus; split <;> rfl
@[simp] theorem writeStatus_outLen (v : Word) (s : State) : (writeStatus v s).outLen = s.outLen := by
  unfold writeStatus; split <;> rfl
@[simp] theorem writeStatus_sizeVal (v : Word) (s : State) : (writeStatus v s).sizeVal = s.sizeVal := by
  unfold writeStatus; split <;> rfl
@[simp] theorem writeStatus_mem (v : Word) (s : State) : (writeStatus v s).mem = s.mem := by
  unfold writeStatus; split <;> rfl
@[simp] theorem writeStatus_op (v : Word) (s : State) : (writeStatus v s).op = s.op := by
  unfold writeStatus; split <;> rfl
@[simp] theorem writeStatus_hostQueue (v : Word) (s : State) : (writeStatus v s).hostQueue = s.hostQueue := by
  unfold writeStatus; split <;> rfl
@[simp] theorem writeStatus_responses (v : Word) (s : State) : (writeStatus v s).responses = s.responses := by
  unfold writeStatus; split <;> rfl
@[simp] theorem writeStatus_durations (v : Word) (s : State) : (writeStatus v s).durations = s.durations := by
  unfold writeStatus; split <;> rfl
@[simp] theorem writeStatus_draws (v : Word) (s : State) : (writeStatus v s).draws = s.draws := by
  unfold writeStatus; split <;> rfl
@[simp] theorem writeStatus_outDraw (v : Word) (s : State) : (writeStatus v s).outDraw = s.outDraw := by
  unfold writeStatus; split <;> rfl

@[simp] theorem startOp_opr (i : Instr) (n d w : Nat) : (startOp i n d w).opr = i := rfl
@[simp] theorem startOp_n (i : Instr) (n d w : Nat) : (startOp i n d w).n = n := rfl
@[simp] theorem startOp_dstate (i : Instr) (n d w : Nat) : (startOp i n d w).dstate = .seek := rfl
@[simp] theorem startOp_i (i : Instr) (n d w : Nat) : (startOp i n d w).i = 0 := rfl
@[simp] theorem startOp_cnt (i : Instr) (n d w : Nat) : (startOp i n d w).cnt = 0 := rfl
@[simp] theorem startOp_k (i : Instr) (n d w : Nat) : (startOp i n d w).k = 0 := rfl
@[simp] theorem startOp_j (i : Instr) (n d w : Nat) : (startOp i n d w).j = 0 := rfl
@[simp] theorem startOp_draw (i : Instr) (n d w : Nat) : (startOp i n d w).draw = d := rfl
@[simp] theorem startOp_wait (i : Instr) (n d w : Nat) : (startOp i n d w).wait = w := rfl
@[simp] theorem acceptedOp_opr (i : Instr) (s : State) : (acceptedOp i s).opr = i := rfl
@[simp] theorem acceptedOp_n (i : Instr) (s : State) : (acceptedOp i s).n = s.inLen.toNat := rfl
@[simp] theorem acceptedOp_dstate (i : Instr) (s : State) : (acceptedOp i s).dstate = .seek := rfl
@[simp] theorem acceptedOp_i (i : Instr) (s : State) : (acceptedOp i s).i = 0 := rfl
@[simp] theorem acceptedOp_cnt (i : Instr) (s : State) : (acceptedOp i s).cnt = 0 := rfl
@[simp] theorem acceptedOp_k (i : Instr) (s : State) : (acceptedOp i s).k = 0 := rfl
@[simp] theorem acceptedOp_j (i : Instr) (s : State) : (acceptedOp i s).j = 0 := rfl
@[simp] theorem acceptedOp_draw (i : Instr) (s : State) : (acceptedOp i s).draw = s.draws := rfl
@[simp] theorem acceptedOp_wait (i : Instr) (s : State) : (acceptedOp i s).wait = nextDuration s := rfl

end Sys2Proof.Machine
end

