-- ==== Sys2Proof/Laws/Bus.lean ====
section
/-! SUPPORT. What one bus transaction can do (20_memory.md R50 to R60), and the region of each offset. -/

namespace Sys2Proof.Machine

/-- Offsets below 0x20 are the registers (R51). -/
theorem regionOf_registers {off : Offset} (h : off.toNat < 0x20) : regionOf Config.build off = .registers := by
  simp [regionOf, h]

/-- An offset that is not 4-byte aligned is no register (R52). -/
theorem regAt_misaligned {off : Offset} (h : off.toNat % 4 ≠ 0) : regAt off = none := by
  unfold regAt
  repeat (split; (subst_vars; exact absurd (by decide) h))
  rfl

/-- The offset of IN_BUF[k] (R53). -/
theorem regionOf_inBuf {k : Nat} (h : k < 256) : regionOf Config.build (BitVec.ofNat 18 (0x10000 + k)) = .inBuf k := by
  have e : (BitVec.ofNat 18 (0x10000 + k)).toNat = 0x10000 + k := by simp; omega
  unfold regionOf
  rw [e]
  have hi : inBase = 0x10000 := rfl
  have ho : outBase = 0x20000 := rfl
  have hc : Config.build.inCap = 256 := rfl
  have hd : Config.build.outCap = 256 := rfl
  rw [if_neg (by omega), if_pos (by omega), hi, Nat.add_sub_cancel_left]

/-- The offset of OUT_BUF[k] (R54). -/
theorem regionOf_outBuf {k : Nat} (h : k < 256) : regionOf Config.build (BitVec.ofNat 18 (0x20000 + k)) = .outBuf k := by
  have e : (BitVec.ofNat 18 (0x20000 + k)).toNat = 0x20000 + k := by simp; omega
  unfold regionOf
  rw [e]
  have hi : inBase = 0x10000 := rfl
  have ho : outBase = 0x20000 := rfl
  have hc : Config.build.inCap = 256 := rfl
  have hd : Config.build.outCap = 256 := rfl
  rw [if_neg (by omega), if_neg (by omega), if_pos (by omega), ho, Nat.add_sub_cancel_left]

/-- The reserved offsets (R51, R55). -/
theorem regionOf_reserved {off : Offset} (h : (0x20 ≤ off.toNat ∧ off.toNat < 0x10000) ∨ (0x10100 ≤ off.toNat ∧ off.toNat < 0x20000) ∨
      0x20100 ≤ off.toNat) : regionOf Config.build off = .reserved := by
  unfold regionOf
  have hi : inBase = 0x10000 := rfl
  have ho : outBase = 0x20000 := rfl
  have hc : Config.build.inCap = 256 := rfl
  have hd : Config.build.outCap = 256 := rfl
  rw [if_neg (by omega), if_neg (by omega), if_neg (by omega)]

/-- The offsets of the three registers that take a write (R22, R52). -/
theorem regAt_some {off : Offset} {r : Reg} (h : regAt off = some r) :
    (r = .cmd → off = 0) ∧ (r = .status → off = 4) ∧ (r = .inLen → off = 8) := by
  unfold regAt at h
  repeat (split at h; (cases h; refine ⟨?_, ?_, ?_⟩ <;> intro hh <;> first | assumption | cases hh))
  cases h

/-- What a write can do (R52 to R55): it answers ERR and changes nothing, or it is one of the four legal
writes, each answered with OKAY. -/
theorem busWrite_cases (p : Params) (off : Offset) (d : BusData) (s : State) :
   busWrite p off d s = (.write .err, s) ∨
   (∃ v, off = 0 ∧ d = .b4 v ∧ busWrite p off d s = (.write .okay, writeCmd v s)) ∨
   (∃ v, off = 4 ∧ d = .b4 v ∧ busWrite p off d s = (.write .okay, writeStatus v s)) ∨
   (∃ v, off = 8 ∧ d = .b4 v ∧ busWrite p off d s = (.write .okay, writeInLen p v s)) ∨
   (∃ k b, (inBase + k = off.toNat ∧ k < p.inCap) ∧ d = .b1 b ∧ busWrite p off d s = (.write .okay, writeInBuf k b s)) := by
  unfold busWrite
  cases hr : regionOf p off with
  | registers =>
    cases d with
    | b1 v => exact .inl rfl
    | b2 v => exact .inl rfl
    | b4 v =>
      simp only
      cases hra : regAt off with
      | none => exact .inl rfl
      | some r =>
        obtain ⟨h1, h2, h3⟩ := regAt_some hra
        cases r with
        | cmd => exact .inr (.inl ⟨v, h1 rfl, rfl, rfl⟩)
        | status => exact .inr (.inr (.inl ⟨v, h2 rfl, rfl, rfl⟩))
        | inLen => exact .inr (.inr (.inr (.inl ⟨v, h3 rfl, rfl, rfl⟩)))
        | _ => exact .inl rfl
  | inBuf k =>
    cases d with
    | b1 v =>
      refine .inr (.inr (.inr (.inr ⟨k, v, ?_, rfl, rfl⟩)))
      unfold regionOf at hr
      split at hr
      · cases hr
      · split at hr
        · rename_i h; have e := Region.inBuf.inj hr; obtain ⟨h1, h2⟩ := h; constructor <;> omega
        · split at hr <;> cases hr
    | b2 v => exact .inl rfl
    | b4 v => exact .inl rfl
  | outBuf k => exact .inl rfl
  | reserved => exact .inl rfl

/-- What a read can do: it leaves the state as it was, or takes one draw of a free value; and it answers ERR
with data 0, or OKAY (R50, R60). -/
theorem busRead_cases (p : Params) (off : Offset) (n : Width) (s : State) :
   ((busRead p off n s).2 = s ∨ (busRead p off n s).2 = nextDraw s) ∧
   ((busRead p off n s) = (readErr n, s) ∨ ∃ d, (busRead p off n s).1 = .read .okay d) := by
  unfold busRead
  split
  · split
    · rename_i r _
      refine ⟨?_, .inr ⟨_, rfl⟩⟩
      cases r <;> unfold readReg <;> first | exact .inl rfl | (dsimp only; split <;> first | exact .inl rfl | exact .inr rfl)
    · exact ⟨.inl rfl, .inl rfl⟩
  · refine ⟨?_, .inr ⟨_, rfl⟩⟩
    unfold readInBuf
    split <;> first | exact .inl rfl | exact .inr rfl
  · refine ⟨?_, .inr ⟨_, rfl⟩⟩
    unfold readOutBuf
    split <;> first | exact .inl rfl | exact .inr rfl
  · exact ⟨.inl rfl, .inl rfl⟩

/-- All that a turn of a polling loop does: the host gets the STATUS word, and the queue is what `last` says. -/
theorem poll_eq (p : Params) (last : Bool) (rest : List HostEvent) (s : State) :
    poll p last rest s =
      { s with
        hostQueue := if last then rest else s.hostQueue
        responses := .read .okay (.b4 (statusWord s.status)) :: s.responses } := by
  cases last <;> rfl

end Sys2Proof.Machine
end

