-- ==== Sys2Proof/Laws/Memory.lean ====
section
/-! SUPPORT. The laws of memory: a read after a write, the canonical form is kept, and which addresses a write
can list. -/

namespace Sys2Proof.Machine

/-- Read after write: the written address gives the written byte, every other address what it gave before. -/
theorem memLookup_memWrite (m : Memory) (a b x) :
    memLookup (memWrite m a b) x = if x = a then some b else memLookup m x := by
  induction m with
  | nil => simp [memWrite, memLookup]
  | cons c m ih =>
    obtain ⟨y, v⟩ := c
    unfold memWrite
    split
    · simp [memLookup]
    · split
      · subst_vars
        by_cases hx : x = y <;> simp [memLookup, hx]
      · by_cases hx : x = y
        · subst hx
          simp [memLookup]
          intro h
          exact absurd h.symm ‹_›
        · simp [memLookup, hx, ih]

@[simp] theorem memLookup_memWrite_same (m : Memory) (a b) :
    memLookup (memWrite m a b) a = some b := by simp [memLookup_memWrite]

theorem memLookup_memWrite_other (m : Memory) {a b x} (h : x ≠ a) :
    memLookup (memWrite m a b) x = memLookup m x := by simp [memLookup_memWrite, h]

/-- Read after the write of a list of bytes. -/
theorem memLookup_memWriteList (m : Memory) (a : Nat) (bs : List Byte) (x : Nat) :
    memLookup (memWriteList m a bs) x =
      if a ≤ x ∧ x < a + bs.length then bs[x - a]? else memLookup m x := by
  induction bs generalizing m a with
  | nil =>
    simp only [memWriteList, List.length_nil]
    rw [if_neg (by omega)]
  | cons b bs ih =>
    simp only [memWriteList, ih, memLookup_memWrite, List.length_cons]
    by_cases h1 : a + 1 ≤ x ∧ x < a + 1 + bs.length
    · rw [if_pos h1, if_pos (by omega)]
      obtain ⟨d, hd⟩ : ∃ d, x - a = d + 1 := ⟨x - a - 1, by omega⟩
      rw [hd, List.getElem?_cons_succ]
      congr 1
      omega
    · rw [if_neg h1]
      by_cases h2 : x = a
      · subst h2
        simp
      · rw [if_neg h2, if_neg (by omega)]

/-- Writing two lists one after the other is writing their concatenation. -/
theorem memWriteList_append (m : Memory) (a : Nat) (xs ys : List Byte) :
    memWriteList m a (xs ++ ys) = memWriteList (memWriteList m a xs) (a + xs.length) ys := by
  induction xs generalizing m a with
  | nil => rfl
  | cons b xs ih => simp [memWriteList, ih, Nat.add_assoc, Nat.add_comm 1]

/-- Writing one byte after a list is writing the longer list. -/
theorem memWrite_memWriteList (m : Memory) (a : Nat) (bs : List Byte) (b : Byte) :
    memWrite (memWriteList m a bs) (a + bs.length) b = memWriteList m a (bs ++ [b]) := by
  rw [memWriteList_append]
  rfl

/-- The first address of a canonical memory with the head `c` is below every later one. -/
theorem wf_cons {c : Host.Cell} {m : Memory} :
    Memory.wf (c :: m) = true ↔ (∀ d ∈ m, c.1 < d.1) ∧ Memory.wf m = true := by
  induction m generalizing c with
  | nil => simp [Memory.wf]
  | cons d m ih =>
    simp only [Memory.wf, Bool.and_eq_true, decide_eq_true_eq, List.mem_cons, forall_eq_or_imp]
    constructor
    · rintro ⟨h1, h2⟩
      exact ⟨⟨h1, fun e he => Nat.lt_trans h1 ((ih.1 h2).1 e he)⟩, h2⟩
    · rintro ⟨⟨h1, _⟩, h2⟩
      exact ⟨h1, h2⟩

/-- The addresses that a write can list: the written one and those listed before. -/
theorem mem_memWrite {m : Memory} {a b} {c : Host.Cell} (h : c ∈ memWrite m a b) :
    c = (a, b) ∨ c ∈ m := by
  induction m with
  | nil => simpa [memWrite] using h
  | cons d m ih =>
    obtain ⟨y, v⟩ := d
    unfold memWrite at h
    split at h
    · simpa using h
    · split at h
      · simp only [List.mem_cons] at h ⊢
        tauto
      · simp only [List.mem_cons] at h ⊢
        rcases h with h | h
        · exact .inr (.inl h)
        · rcases ih h with h | h
          · exact .inl h
          · exact .inr (.inr h)

/-- A write keeps the canonical form. -/
theorem memWrite_wf {m : Memory} (h : Memory.wf m = true) (a b) :
    Memory.wf (memWrite m a b) = true := by
  induction m with
  | nil => rfl
  | cons d m ih =>
    obtain ⟨y, v⟩ := d
    obtain ⟨h1, h2⟩ := wf_cons.1 h
    unfold memWrite
    split
    · rename_i hlt
      refine wf_cons.2 ⟨?_, h⟩
      intro d hd
      rcases List.mem_cons.1 hd with rfl | hd
      · exact hlt
      · exact Nat.lt_trans hlt (h1 d hd)
    · split
      · subst_vars
        exact wf_cons.2 ⟨h1, h2⟩
      · refine wf_cons.2 ⟨?_, ih h2⟩
        intro d hd
        rcases mem_memWrite hd with rfl | hd
        · simp only
          omega
        · exact h1 d hd

/-- The write of a list keeps the canonical form. -/
theorem memWriteList_wf {m : Memory} (h : Memory.wf m = true) (a : Nat) (bs : List Byte) :
    Memory.wf (memWriteList m a bs) = true := by
  induction bs generalizing m a with
  | nil => exact h
  | cons b bs ih => exact ih (memWrite_wf h a b) (a + 1)

/-- Memory after reset has the canonical form. -/
theorem reset_mem_wf : Memory.wf State.reset.mem = true := rfl

end Sys2Proof.Machine
end

