-- ==== Sys2Proof/Laws/Ops.lean ====
section
/-! SUPPORT. What the shared operations can do: emit, append, reading the input, and running an operation. -/

namespace Sys2Proof.Machine

/-- An access to IN_BUF[k] inside the input answers. -/
theorem guardIn_eq {p : Params} {o : OpState} {k : Nat} {b : Byte} (hk : k < o.n) (hn : o.n ≤ p.inCap) :
    guardIn p o k b = .ok b := if_pos ⟨hk, hn⟩

/-- A first read inside the input answers. -/
theorem readIn_eq {p : Params} {o : OpState} {k : Nat} {s : State} (hk : k < o.n) (hn : o.n ≤ p.inCap) :
    readIn p o k s = .ok (inByte o.draw k s) := guardIn_eq hk hn

/-- A second read inside the input answers. -/
theorem readAgain_eq {p : Params} {o : OpState} {k : Nat} {s : State} (hk : k < o.n) (hn : o.n ≤ p.inCap) :
    readAgain p o k s = .ok (againByte o k s) := guardIn_eq hk hn

theorem readInput_eq {p : Params} {o : OpState} {s : State} (hn : o.n ≤ p.inCap) :
    readInput p o s = .ok (opInput o s) := by simp [readInput, hn]

@[simp] theorem opInput_length (o : OpState) (s : State) : (opInput o s).length = o.n := by
  simp [opInput, inputAt]

@[simp] theorem opInputAgain_length (o : OpState) (s : State) : (opInputAgain o s).length = o.n := by
  simp [opInputAgain, inputAt]

/-- Element k of the input is the byte that the operation's first read at k gives (R83). -/
theorem opInput_getElem? (o : OpState) (s : State) {k : Nat} (hk : k < o.n) :
    (opInput o s)[k]? = some (inByte o.draw k s) := by
  simp [opInput, inputAt, hk]

theorem opInputAgain_getElem? (o : OpState) (s : State) {k : Nat} (hk : k < o.n) :
    (opInputAgain o s)[k]? = some (againByte o k s) := by
  simp [opInputAgain, inputAt, againByte, hk]

/-- The final check reads the last byte of the second reads. -/
theorem opInputAgain_getLast? {o : OpState} {s : State} (h : 1 ≤ o.n) :
    (opInputAgain o s).getLast? = some (finalByte o s) := by
  rw [List.getLast?_eq_getElem?, opInputAgain_length]
  exact opInputAgain_getElem? o s (by omega)

/-- A byte written since reset is read as itself at every draw (R35). -/
theorem inByte_written {s : State} {k : Nat} {b : Byte} (h : memLookup s.mem (inBase + k) = some b) (d : Nat) :
    inByte d k s = b := by
  unfold inByte
  rw [h]

/-- The input from index i on begins with the byte read at i. -/
theorem opInput_drop {o : OpState} {s : State} {i : Nat} (h : i < o.n) :
    (opInput o s).drop i = inByte o.draw i s :: (opInput o s).drop (i + 1) := by
  have hl : i < (opInput o s).length := by simpa using h
  have hg := opInput_getElem? o s h
  rw [List.getElem?_eq_getElem hl] at hg
  rw [List.drop_eq_getElem_cons hl, Option.some.inj hg]

/-- The last input byte is IN[N-1]. -/
theorem opInput_getLast? {o : OpState} {s : State} (h : 1 ≤ o.n) :
    (opInput o s).getLast? = some (inByte o.draw (o.n - 1) s) := by
  rw [List.getLast?_eq_getElem?, opInput_length]
  exact opInput_getElem? o s (by omega)

/-- The input is empty exactly when N = 0. -/
theorem opInput_eq_nil {o : OpState} {s : State} : opInput o s = [] ↔ o.n = 0 := by
  rw [← List.length_eq_zero_iff, opInput_length]

/-- What is read at a draw is a function of N, the draw and the written bytes of the input. -/
theorem inputAt_congr {d n : Nat} {s s' : State}
    (hm : ∀ k < n, memLookup s'.mem (inBase + k) = memLookup s.mem (inBase + k)) :
    inputAt d n s' = inputAt d n s := by
  unfold inputAt
  apply List.map_congr_left
  intro k hk
  simp [inByte, hm k (List.mem_range.1 hk)]

/-- The input of an operation is a function of N, the draw and the written bytes of the input. -/
theorem opInput_congr {o o' : OpState} {s s' : State} (hn : o'.n = o.n) (hd : o'.draw = o.draw)
    (hm : ∀ k < o.n, memLookup s'.mem (inBase + k) = memLookup s.mem (inBase + k)) :
    opInput o' s' = opInput o s := by
  unfold opInput
  rw [hn, hd, inputAt_congr hm]

theorem opInputAgain_congr {o o' : OpState} {s s' : State} (hn : o'.n = o.n) (hd : o'.draw = o.draw)
    (hm : ∀ k < o.n, memLookup s'.mem (inBase + k) = memLookup s.mem (inBase + k)) :
    opInputAgain o' s' = opInputAgain o s := by
  unfold opInputAgain
  rw [hn, hd, inputAt_congr hm]

/-- What `emit` leaves when it answers (R132). -/
theorem emit_ok {p : Params} {v : Byte} {o o' : OpState} {s s' : State}
    (h : emit p v o s = .ok (o', s')) :
    o.j < p.outCap ∧ o' = { o with j := o.j + 1 } ∧ s' = writeOut o.j v s := by
  unfold emit at h
  split at h
  · cases h
    exact ⟨‹_›, rfl, rfl⟩
  · cases h

/-- `emit` of a list below OUT_CAP writes its bytes from index j on and advances j (R132). -/
theorem emitAll_eq {p : Params} (vs : List Byte) {o : OpState} {s : State}
    (h : o.j + vs.length ≤ p.outCap) :
    emitAll p vs o s = .ok ({ o with j := o.j + vs.length },
      { s with mem := memWriteList s.mem (outBase + o.j) vs }) := by
  induction vs generalizing o s with
  | nil => rfl
  | cons v vs ih =>
    simp only [List.length_cons] at h
    simp only [emitAll, emit, if_pos (show o.j < p.outCap by omega)]
    rw [ih (by simp only; omega)]
    simp [memWriteList, writeOut, Nat.add_assoc, Nat.add_comm 1]

/-- What `append` can do (R153): write the byte at cnt and go on, or end with OVERFLOW. -/
theorem append_cases (p : Params) (v : Byte) (o : OpState) (s : State) :
    (o.cnt < p.outCap ∧
      append p v o s = .running { o with cnt := o.cnt + 1 } (writeOut o.cnt v s)) ∨
    (p.outCap ≤ o.cnt ∧ append p v o s = .finished (finish .overflow (setOutLen 0 s))) := by
  unfold append
  by_cases h : o.cnt < p.outCap
  · exact .inl ⟨h, if_pos h⟩
  · exact .inr ⟨by omega, if_neg h⟩

@[simp] theorem runOp_zero (f : OpState → State → Micro) (o : OpState) (s : State) :
    runOp f 0 o s = .fault .unfinished := rfl

/-- One internal step of a run. -/
theorem runOp_succ (f : OpState → State → Micro) (fuel : Nat) (o : OpState) (s : State) :
    runOp f (fuel + 1) o s =
      match f o s with
      | .running o' s' => runOp f fuel o' s'
      | .finished s' => .next s'
      | .fault r => .fault r := rfl

/-- More internal steps than an operation needs change nothing (R114). -/
theorem runOp_mono {f : OpState → State → Micro} {a b : Nat} (hab : a ≤ b) {o : OpState} {s : State}
    (h : runOp f a o s ≠ .fault .unfinished) : runOp f b o s = runOp f a o s := by
  induction a generalizing b o s with
  | zero => exact absurd rfl h
  | succ a ih =>
    obtain ⟨c, rfl⟩ : ∃ c, b = c + 1 := ⟨b - 1, by omega⟩
    rw [runOp_succ, runOp_succ] at *
    cases hf : f o s with
    | running o' s' =>
      simp only [hf] at h ⊢
      exact ih (by omega) h
    | finished s' => rfl
    | fault r => rfl

/-- A property that every internal step keeps, and that gives `Q` where the operation ends, gives `Q` of the
whole run: the induction over internal steps, once. -/
theorem runOp_induction {f : OpState → State → Micro} {P : OpState → State → Prop} {Q : State → Prop}
    (hrun : ∀ o s o' s', P o s → f o s = .running o' s' → P o' s')
    (hfin : ∀ o s s', P o s → f o s = .finished s' → Q s')
    {fuel : Nat} {o : OpState} {s t : State} (hP : P o s) (h : runOp f fuel o s = .next t) : Q t := by
  induction fuel generalizing o s with
  | zero => cases h
  | succ fuel ih =>
    rw [runOp_succ] at h
    cases hf : f o s with
    | running o' s' =>
      simp only [hf] at h
      exact ih (hrun _ _ _ _ hP hf) h
    | finished s' =>
      simp only [hf] at h
      cases h
      exact hfin _ _ _ hP hf
    | fault r =>
      simp only [hf] at h
      cases h

/-- In a state in which an operation runs, a meaning runs it. -/
theorem runCommand_some {f : OpState → State → Micro} {i : Instr} {s : State} {o : OpState}
    (h : s.op = some o) : runCommand f i s = runOp f (stepBound o) o s := by simp [runCommand, h]

/-- In a state in which none runs, a meaning runs the operation that the acceptance starts. -/
theorem runCommand_none {f : OpState → State → Micro} {i : Instr} {s : State} (h : s.op = none) :
    runCommand f i s = runOp f (stepBound (acceptedOp i s)) (acceptedOp i s) (acceptCommand i s) := by
  simp [runCommand, h]

end Sys2Proof.Machine
end

