-- ==== Sys2Proof/Laws/Wire.lean ====
section
/-! SUPPORT. The laws of the wire format and of the size function. -/

namespace Sys2Proof.Machine

/-- A byte has an escape code exactly when it is reserved (R8, R89). -/
theorem codeOf_isSome (p : Params) (b : Byte) : (codeOf p b).isSome = isReserved p b := by
  unfold codeOf isReserved
  split
  · simp_all
  · split
    · simp_all
    · split <;> simp_all

/-- The wire form of a literal byte is the byte itself (R90). -/
theorem wireForm_literal {p : Params} {b : Byte} (h : isReserved p b = false) : wireForm p b = [b] := by
  have := codeOf_isSome p b
  unfold wireForm
  split
  · rename_i c hc
    simp [hc, h] at this
  · rfl

/-- The wire form of a reserved byte is ESCAPE and its code (R90). -/
theorem wireForm_reserved {p : Params} {b : Byte} (h : isReserved p b = true) :
    ∃ c, codeOf p b = some c ∧ wireForm p b = [p.escapeByte, c] := by
  have hs := codeOf_isSome p b
  rw [h] at hs
  obtain ⟨c, hc⟩ := Option.isSome_iff_exists.1 hs
  exact ⟨c, hc, by simp [wireForm, hc]⟩

/-- The wire form of a byte is as long as its weight in EncSize (R91, R180). -/
@[simp] theorem wireForm_length (p : Params) (b : Byte) : (wireForm p b).length = wireWeight p b := by
  unfold wireWeight
  split
  · rename_i h
    obtain ⟨c, -, hw⟩ := wireForm_reserved h
    simp [hw]
  · rename_i h
    simp [wireForm_literal (by simpa using h)]

/-- EncSize is at least 2 (R181). -/
theorem two_le_encSize (p : Params) (payload : List Byte) : 2 ≤ encSize p payload := by
  unfold encSize
  omega

/-- EncSize is at most 2 + 2 * len (R181). -/
theorem encSize_le (p : Params) (payload : List Byte) : encSize p payload ≤ 2 + 2 * payload.length := by
  induction payload with
  | nil => simp [encSize]
  | cons b payload ih =>
    have hw : wireWeight p b ≤ 2 := by
      unfold wireWeight
      split <;> omega
    simp only [encSize, List.map_cons, List.sum_cons, List.length_cons] at ih ⊢
    omega

/-- The frame of a payload is EncSize bytes long (R91, R133). -/
theorem frame_length (p : Params) (payload : List Byte) :
    (frame p payload).length = encSize p payload := by
  simp only [frame, encSize, List.length_append, List.length_cons, List.length_flatMap, wireForm_length,
    List.length_nil]
  change _ + 1 + 1 = 2 + (payload.map fun b => wireWeight p b).sum
  omega

/-- The escape codes and the reserved bytes are in bijection (R8). -/
theorem reservedOf_codeOf {p : Params} (hp : p.Legal) {b c : Byte} (h : codeOf p b = some c) :
    reservedOf p c = some b := by
  obtain ⟨hn, -⟩ := hp
  simp only [Params.constants, List.nodup_cons, List.mem_cons, List.not_mem_nil, or_false, not_or] at hn
  unfold codeOf at h
  unfold reservedOf
  split at h
  · simp_all
  · split at h
    · have := Option.some.inj h
      subst this
      subst_vars
      rw [if_neg (by tauto), if_neg (by tauto), if_pos rfl]
    · split at h
      · have := Option.some.inj h
        subst this
        subst_vars
        rw [if_neg (by tauto), if_pos rfl]
      · cases h

/-- The build's parameters satisfy the constraints of R7 to R10. -/
theorem build_legal : Config.build.Legal := by decide

end Sys2Proof.Machine
end

