-- ==== Sys2Proof/Laws/Operations.lean ====
section
/-! SUPPORT. What one internal step of each operation can do, guards included: the cases of `encodeStep`, of
`scanStep`, of `sizeStep` and of `badStep`, and the frame that they share (40_command.md R113). -/

namespace Sys2Proof.Machine

/-- An access to IN_BUF[k] answers with the byte, or stops outside the input. -/
theorem guardIn_cases (p : Params) (o : OpState) (k : Nat) (b : Byte) :
    (k < o.n ∧ o.n ≤ p.inCap ∧ guardIn p o k b = .ok b) ∨
    (¬ (k < o.n ∧ o.n ≤ p.inCap) ∧ guardIn p o k b = .error .inBufIndex) := by
  unfold guardIn
  split
  · rename_i h
    exact .inl ⟨h.1, h.2, rfl⟩
  · rename_i h
    exact .inr ⟨h, rfl⟩

/-- A first read of IN[k]. -/
theorem readIn_cases (p : Params) (o : OpState) (k : Nat) (s : State) :
    (k < o.n ∧ o.n ≤ p.inCap ∧ readIn p o k s = .ok (inByte o.draw k s)) ∨
    (¬ (k < o.n ∧ o.n ≤ p.inCap) ∧ readIn p o k s = .error .inBufIndex) := guardIn_cases ..

/-- A second read of IN[k]. -/
theorem readAgain_cases (p : Params) (o : OpState) (k : Nat) (s : State) :
    (k < o.n ∧ o.n ≤ p.inCap ∧ readAgain p o k s = .ok (againByte o k s)) ∨
    (¬ (k < o.n ∧ o.n ≤ p.inCap) ∧ readAgain p o k s = .error .inBufIndex) := guardIn_cases ..

/-- A byte is emitted with the length that EncSize counted for it (R133). -/
@[simp] theorem wireWeight_encodedByte (p : Params) (o : OpState) (k : Nat) (s : State) :
    wireWeight p (encodedByte p o k s) = wireWeight p (inByte o.draw k s) := by
  unfold encodedByte secondRead
  split
  · assumption
  · rfl

@[simp] theorem encodedInput_length (p : Params) (o : OpState) (s : State) :
    (encodedInput p o s).length = o.n := by
  simp [encodedInput]

theorem encodedInput_getElem? (p : Params) (o : OpState) (s : State) {k : Nat} (hk : k < o.n) :
    (encodedInput p o s)[k]? = some (encodedByte p o k s) := by
  simp [encodedInput, hk]

/-- The payload that the loop of ENCODE encodes has the size that EncSize computed (R133). -/
@[simp] theorem encSize_encodedInput (p : Params) (o : OpState) (s : State) :
    encSize p (encodedInput p o s) = encSize p (opInput o s) := by
  simp [encSize, encodedInput, opInput, inputAt, List.map_map, Function.comp_def]

/-- Where the two reads of every byte agree, ENCODE encodes its input. -/
theorem encodedInput_eq {p : Params} {o : OpState} {s : State} (h : opInputAgain o s = opInput o s) :
    encodedInput p o s = opInput o s := by
  apply List.ext_getElem?
  intro k
  by_cases hk : k < o.n
  · have e := opInputAgain_getElem? o s hk
    rw [h, opInput_getElem? o s hk] at e
    rw [encodedInput_getElem? p o s hk, opInput_getElem? o s hk, encodedByte, ← Option.some.inj e]
    simp [secondRead]
  · rw [List.getElem?_eq_none (by simp; omega), List.getElem?_eq_none (by simp; omega)]

/-- `emit` of a list that does not fit stops. -/
theorem emitAll_error {p : Params} (vs : List Byte) {o : OpState} {s : State} (hj : o.j ≤ p.outCap)
    (h : p.outCap < o.j + vs.length) : emitAll p vs o s = .error .outBufIndex := by
  induction vs generalizing o s with
  | nil =>
    simp only [List.length_nil] at h
    omega
  | cons v vs ih =>
    simp only [List.length_cons] at h
    unfold emitAll emit
    by_cases hlt : o.j < p.outCap
    · rw [if_pos hlt]
      exact ih (by simp only; omega) (by simp only; omega)
    · rw [if_neg hlt]

/-- The steps of ENCODE before the loop (R131). -/
theorem encodeBegin_cases (p : Params) (o : OpState) (s : State) (hj : o.j = 0) :
    (o.n = 0 ∧ encodeStep p o s = .finished (finish .emptyInput (setOutLen 0 s))) ∨
    (0 < o.n ∧ p.inCap < o.n ∧ encodeStep p o s = .fault .inBufIndex) ∨
    (0 < o.n ∧ o.n ≤ p.inCap ∧ p.outCap < encSize p (opInput o s) ∧
      encodeStep p o s =
        .finished (finish .overflow (setOutLen 0 (setSizeVal (encSize p (opInput o s)) s)))) ∨
    (0 < o.n ∧ o.n ≤ p.inCap ∧ encSize p (opInput o s) ≤ p.outCap ∧
      encodeStep p o s = .running { o with j := 1 }
        (writeOut 0 p.startByte (setSizeVal (encSize p (opInput o s)) s))) := by
  have h2 : 2 ≤ encSize p (opInput o s) := by
    unfold encSize
    omega
  simp only [encodeStep, encodeBegin, hj, if_true]
  by_cases hn : o.n = 0
  · simp [hn]
  · by_cases hc : o.n ≤ p.inCap
    · simp only [hn, if_false, readInput_eq hc]
      by_cases ho : p.outCap < encSize p (opInput o s)
      · exact .inr (.inr (.inl ⟨by omega, hc, ho, by simp [ho]⟩))
      · refine .inr (.inr (.inr ⟨by omega, hc, by omega, ?_⟩))
        rw [if_neg ho]
        simp [emit, hj, show 0 < p.outCap by omega]
    · refine .inr (.inl ⟨by omega, by omega, ?_⟩)
      simp [hn, readInput, hc]

/-- The loop of ENCODE and the steps after it (R131). -/
theorem encodeLoop_cases (p : Params) (o : OpState) (s : State) (hj : o.j ≠ 0) :
    (∃ r, r ≠ .unfinished ∧ encodeStep p o s = .fault r) ∨
    (∃ j, o.k < o.n ∧ j = o.j + wireWeight p (inByte o.draw o.k s) ∧ j ≤ p.outCap ∧
      encodeStep p o s = .running { o with k := o.k + 1, j := j }
        { s with mem := memWriteList s.mem (outBase + o.j) (wireForm p (encodedByte p o o.k s)) }) ∨
    (o.n ≤ o.k ∧ o.j < p.outCap ∧
      encodeStep p o s = .finished (finish .ok (setOutLen (o.j + 1) (writeOut o.j p.endByte s)))) := by
  simp only [encodeStep, hj, if_false]
  by_cases hk : o.k < o.n
  · rw [if_pos hk]
    unfold encodeByte
    rcases readAgain_cases p o o.k s with ⟨_, _, h⟩ | ⟨_, h⟩
    · rw [h]
      simp only [show secondRead p (inByte o.draw o.k s) (againByte o o.k s) = encodedByte p o o.k s from rfl]
      by_cases hf : o.j + (wireForm p (encodedByte p o o.k s)).length ≤ p.outCap
      · rw [emitAll_eq _ hf]
        exact .inr (.inl ⟨_, hk, rfl, by simpa using hf, by simp⟩)
      · by_cases hjc : o.j ≤ p.outCap
        · rw [emitAll_error _ hjc (by omega)]
          exact .inl ⟨_, by simp, rfl⟩
        · left
          obtain ⟨v, vs, hw⟩ : ∃ v vs, wireForm p (encodedByte p o o.k s) = v :: vs := by
            unfold wireForm
            split <;> exact ⟨_, _, rfl⟩
          simp [hw, emitAll, emit, show ¬ o.j < p.outCap by omega]
    · rw [h]
      exact .inl ⟨_, by simp, rfl⟩
  · rw [if_neg hk]
    unfold encodeEnd emit
    by_cases hf : o.j < p.outCap
    · rw [if_pos hf]
      exact .inr (.inr ⟨by omega, hf, rfl⟩)
    · rw [if_neg hf]
      exact .inl ⟨_, by simp, rfl⟩

/-- An internal step keeps what acceptance latched, and what only the other operations use (R38). -/
structure SameOperation (o o' : OpState) : Prop where
  opr : o'.opr = o.opr
  n : o'.n = o.n
  draw : o'.draw = o.draw
  wait : o'.wait = o.wait

/-- A `step()` of DECODE also keeps ENCODE's indices (R38). -/
structure SameButScan (o o' : OpState) : Prop extends SameOperation o o' where
  k : o'.k = o.k
  j : o'.j = o.j

theorem SameButScan.intro {o o' : OpState} (h : o' = { o with dstate := o'.dstate, i := o'.i, cnt := o'.cnt }) :
    SameButScan o o' := by
  rw [h]
  exact ⟨⟨rfl, rfl, rfl, rfl⟩, rfl, rfl⟩

/-- What one `step()` of R152 can do in the state `s` of the block. -/
inductive ScanEffect (p : Params) (o : OpState) (s : State) : Micro → Prop where
  /-- the operation ends, with an empty payload or with the cnt bytes appended so far -/
  | ended (c : ResultCode) (n : Nat) : c ≠ .none → c ≠ .overflow → (n = 0 ∨ n = o.cnt) →
      ScanEffect p o s (.finished (finish c (setOutLen n s)))
  /-- an append found the output buffer full -/
  | overflowed : p.outCap ≤ o.cnt → (o.dstate = .body ∨ o.dstate = .esc) → o.i < o.n →
      (o.dstate = .body → p.tailMode = .skip → o.i + 1 < o.n) →
      ScanEffect p o s (.finished (finish .overflow (setOutLen 0 s)))
  /-- the model's guard: a read outside the input -/
  | outside (k : Nat) : k = (if o.dstate = .final then o.n - 1 else o.i) →
      ¬ (k < o.n ∧ o.n ≤ p.inCap) → (o.dstate = .seek → o.i ≠ o.n) →
      (o.dstate = .body → o.i < o.n) →
      ScanEffect p o s (.fault .inBufIndex)
  /-- SEEK, BODY or ESC took a byte and appended nothing -/
  | scanned (o' : OpState) : SameButScan o o' → o'.i = o.i + 1 → o.i < o.n →
      (o.dstate = .seek ∧ (o'.dstate = .seek ∨ o'.dstate = .body) ∧ o'.cnt = o.cnt ∨
        o.dstate = .body ∧ o'.dstate = .body ∧ o'.cnt = 0 ∨
        o.dstate = .body ∧ o'.dstate = .esc ∧ o'.cnt = o.cnt ∧ o.i + 1 < o.n) →
      ScanEffect p o s (.running o' s)
  /-- BODY or ESC took a byte and appended one -/
  | appended (o' : OpState) (v : Byte) : SameButScan o o' → o'.i = o.i + 1 → o.i < o.n →
      o'.cnt = o.cnt + 1 → o.cnt < p.outCap → o'.dstate = .body →
      (o.dstate = .body ∧ o.i + 1 < o.n ∨ o.dstate = .esc) →
      ScanEffect p o s (.running o' (writeOut o.cnt v s))
  /-- BODY moved to FINAL -/
  | toFinal (o' : OpState) : SameButScan o o' → o'.i = o.i → o.dstate = .body → o'.dstate = .final →
      (o'.cnt = o.cnt ∨ o'.cnt = 0) → ScanEffect p o s (.running o' s)
  /-- BODY moved to FINAL under TAIL_MODE = LITERAL and appended the last input byte (I1) -/
  | tailAppended (o' : OpState) (v : Byte) : SameButScan o o' → o'.i = o.i → o.dstate = .body →
      o'.dstate = .final → o'.cnt = o.cnt + 1 → o.cnt < p.outCap → p.tailMode = .literal →
      o.i + 1 = o.n → ScanEffect p o s (.running o' (writeOut o.cnt v s))

theorem decodeSeek_effect (p : Params) (o : OpState) (s : State) (hd : o.dstate = .seek) :
    ScanEffect p o s (decodeSeek p o s) := by
  unfold decodeSeek
  by_cases hi : o.i = o.n
  · rw [if_pos hi]
    exact .ended _ _ (by simp) (by simp) (.inl rfl)
  · rw [if_neg hi]
    rcases readIn_cases p o o.i s with ⟨h1, -, h⟩ | ⟨h1, h⟩
    · rw [h]
      dsimp only
      split
      · exact .scanned _ (.intro rfl) rfl h1 (.inl ⟨hd, .inr rfl, rfl⟩)
      · exact .scanned _ (.intro rfl) rfl h1 (.inl ⟨hd, .inl hd, rfl⟩)
    · rw [h]
      exact .outside o.i (by simp [hd]) h1 (fun _ => hi) (by simp [hd])

theorem append_effect {p : Params} {o o1 : OpState} {s : State} (v : Byte) (hc : o1.cnt = o.cnt)
    (hfull : p.outCap ≤ o.cnt → ScanEffect p o s (.finished (finish .overflow (setOutLen 0 s))))
    (hok : o.cnt < p.outCap →
      ScanEffect p o s (.running { o1 with cnt := o.cnt + 1 } (writeOut o.cnt v s))) :
    ScanEffect p o s (append p v o1 s) := by
  rcases append_cases p v o1 s with ⟨h, he⟩ | ⟨h, he⟩
  · rw [he, hc]
    exact hok (hc ▸ h)
  · rw [he]
    exact hfull (hc ▸ h)

theorem decodeBody_effect (p : Params) (o : OpState) (s : State) (hd : o.dstate = .body) :
    ScanEffect p o s (decodeBody p o s) := by
  unfold decodeBody
  by_cases hi : o.n ≤ o.i + 1
  · rw [if_pos hi]
    cases ht : p.tailMode with
    | skip => exact .toFinal _ (.intro rfl) rfl hd rfl (.inl rfl)
    | literal =>
      dsimp only
      unfold decodeTail
      by_cases he : o.i + 1 = o.n
      · rw [if_pos he]
        rcases readIn_cases p o o.i s with ⟨h1, -, h⟩ | ⟨h1, h⟩
        · rw [h]
          dsimp only
          split
          · exact .toFinal _ (.intro rfl) rfl hd rfl (.inl rfl)
          · split
            · exact .toFinal _ (.intro rfl) rfl hd rfl (.inr rfl)
            · refine append_effect _ rfl (fun hc => ?_) (fun hc => ?_)
              · exact .overflowed hc (.inl hd) h1 (fun _ hs => by rw [ht] at hs; cases hs)
              · exact .tailAppended _ _ (.intro rfl) rfl hd rfl rfl hc ht he
        · rw [h]
          exact .outside o.i (by simp [hd]) h1 (by simp [hd]) (fun _ => by omega)
      · rw [if_neg he]
        exact .toFinal _ (.intro rfl) rfl hd rfl (.inl rfl)
  · rw [if_neg hi]
    rcases readIn_cases p o o.i s with ⟨h1, -, h⟩ | ⟨h1, h⟩
    · rw [h]
      dsimp only
      split
      · exact .scanned _ (.intro rfl) rfl h1 (.inr (.inl ⟨hd, hd, rfl⟩))
      · split
        · exact .toFinal _ (.intro rfl) rfl hd rfl (.inl rfl)
        · split
          · exact .scanned _ (.intro rfl) rfl h1 (.inr (.inr ⟨hd, rfl, rfl, by omega⟩))
          · refine append_effect _ rfl (fun hc => ?_) (fun hc => ?_)
            · exact .overflowed hc (.inl hd) h1 (fun _ _ => by omega)
            · exact .appended _ _ (.intro rfl) rfl h1 rfl hc hd (.inl ⟨hd, by omega⟩)
    · rw [h]
      exact .outside o.i (by simp [hd]) h1 (by simp [hd]) (fun _ => by omega)

theorem decodeEsc_effect (p : Params) (o : OpState) (s : State) (hd : o.dstate = .esc) :
    ScanEffect p o s (decodeEsc p o s) := by
  unfold decodeEsc
  rcases readIn_cases p o o.i s with ⟨h1, -, h⟩ | ⟨h1, h⟩
  · rw [h]
    dsimp only
    cases reservedOf p (inByte o.draw o.i s) with
    | none => exact .ended _ _ (by simp) (by simp) (.inl rfl)
    | some v =>
      refine append_effect _ rfl (fun hc => ?_) (fun hc => ?_)
      · exact .overflowed hc (.inr hd) h1 (by simp [hd])
      · exact .appended _ _ (.intro rfl) rfl h1 rfl hc rfl (.inr hd)
  · rw [h]
    exact .outside o.i (by simp [hd]) h1 (by simp [hd]) (by simp [hd])

theorem decodeFinal_effect (p : Params) (o : OpState) (s : State) (hd : o.dstate = .final) :
    ScanEffect p o s (decodeFinal p o s) := by
  unfold decodeFinal
  rcases readAgain_cases p o (o.n - 1) s with ⟨h1, -, h⟩ | ⟨h1, h⟩
  · rw [h]
    dsimp only
    split <;> exact .ended _ _ (by simp) (by simp) (.inr rfl)
  · rw [h]
    exact .outside (o.n - 1) (by simp [hd]) h1 (by simp [hd]) (by simp [hd])

/-- The cases of one `step()` (R152), whatever DSTATE is. -/
theorem scanStep_effect (p : Params) (o : OpState) (s : State) : ScanEffect p o s (scanStep p o s) := by
  unfold scanStep
  cases hd : o.dstate with
  | seek => exact decodeSeek_effect p o s hd
  | body => exact decodeBody_effect p o s hd
  | esc => exact decodeEsc_effect p o s hd
  | final => exact decodeFinal_effect p o s hd

/-- SIZE: one step (R182). -/
theorem sizeStep_cases (p : Params) (o : OpState) (s : State) :
    (o.n ≤ p.inCap ∧
      sizeStep p o s = .finished (finish .ok (setSizeVal (encSize p (opInput o s)) s))) ∨
    (p.inCap < o.n ∧ sizeStep p o s = .fault .inBufIndex) := by
  unfold sizeStep
  by_cases hn : o.n ≤ p.inCap
  · rw [readInput_eq hn]
    exact .inl ⟨hn, rfl⟩
  · simp [readInput, hn, Nat.lt_of_not_le hn]

/-- What an internal step or a completion never changes (R61, R113): IN_LEN, WERR, the platform's side, and
every byte that is not one of OUT_BUF. -/
structure OutsideUnchanged (p : Params) (s t : State) : Prop where
  inLen : t.inLen = s.inLen
  werr : t.status.werr = s.status.werr
  hostQueue : t.hostQueue = s.hostQueue
  responses : t.responses = s.responses
  durations : t.durations = s.durations
  draws : t.draws = s.draws
  outDraw : t.outDraw = s.outDraw
  bytes : ∀ a, (∀ k, k < p.outCap → a ≠ outBase + k) → memLookup t.mem a = memLookup s.mem a
  canonical : Memory.wf s.mem = true → Memory.wf t.mem = true
  listed : ∀ c ∈ t.mem, c ∈ s.mem ∨ ∃ k < p.outCap, c.1 = outBase + k

theorem OutsideUnchanged.refl (p : Params) (s : State) : OutsideUnchanged p s s :=
  ⟨rfl, rfl, rfl, rfl, rfl, rfl, rfl, fun _ _ => rfl, id, fun _ hc => .inl hc⟩

theorem OutsideUnchanged.trans {p : Params} {s t u : State} (h : OutsideUnchanged p s t)
    (h' : OutsideUnchanged p t u) : OutsideUnchanged p s u :=
  ⟨h'.inLen.trans h.inLen, h'.werr.trans h.werr, h'.hostQueue.trans h.hostQueue,
    h'.responses.trans h.responses, h'.durations.trans h.durations, h'.draws.trans h.draws,
    h'.outDraw.trans h.outDraw, fun a ha => (h'.bytes a ha).trans (h.bytes a ha),
    fun hw => h'.canonical (h.canonical hw), fun c hc => (h'.listed c hc).elim (h.listed c) .inr⟩

theorem finish_outside (p : Params) (c : ResultCode) (s : State) : OutsideUnchanged p s (finish c s) :=
  ⟨rfl, rfl, rfl, rfl, rfl, rfl, rfl, fun _ _ => rfl, id, fun _ hc => .inl hc⟩

theorem setOutLen_outside (p : Params) (n : Nat) (s : State) : OutsideUnchanged p s (setOutLen n s) :=
  ⟨rfl, rfl, rfl, rfl, rfl, rfl, rfl, fun _ _ => rfl, id, fun _ hc => .inl hc⟩

theorem setSizeVal_outside (p : Params) (n : Nat) (s : State) : OutsideUnchanged p s (setSizeVal n s) :=
  ⟨rfl, rfl, rfl, rfl, rfl, rfl, rfl, fun _ _ => rfl, id, fun _ hc => .inl hc⟩

theorem writeOut_outside {p : Params} {k : Nat} (hk : k < p.outCap) (v : Byte) (s : State) :
    OutsideUnchanged p s (writeOut k v s) :=
  ⟨rfl, rfl, rfl, rfl, rfl, rfl, rfl, fun _ ha => memLookup_memWrite_other _ (ha k hk),
    fun hw => memWrite_wf hw _ _, fun c hc => (mem_memWrite hc).elim (fun h => .inr ⟨k, hk, by rw [h]⟩) .inl⟩

theorem memWriteList_outside {p : Params} {k : Nat} (bs : List Byte) (hk : k + bs.length ≤ p.outCap)
    (s : State) : OutsideUnchanged p s { s with mem := memWriteList s.mem (outBase + k) bs } := by
  induction bs generalizing k s with
  | nil => exact .refl p s
  | cons b bs ih =>
    simp only [List.length_cons] at hk
    exact (writeOut_outside (by omega) b s).trans (ih (k := k + 1) (by omega) (writeOut k b s))

/-- What an internal step that goes on leaves: the registers but SIZE_VAL, and everything outside OUT_BUF. -/
structure GoesOn (p : Params) (o : OpState) (s : State) (o' : OpState) (s' : State) : Prop where
  same : SameOperation o o'
  outside : OutsideUnchanged p s s'
  status : s'.status = s.status
  outLen : s'.outLen = s.outLen
  op : s'.op = s.op

theorem encodeStep_goesOn {p : Params} {o o' : OpState} {s s' : State}
    (h : encodeStep p o s = .running o' s') : GoesOn p o s o' s' := by
  by_cases hj : o.j = 0
  · rcases encodeBegin_cases p o s hj with ⟨-, he⟩ | ⟨-, -, he⟩ | ⟨-, -, -, he⟩ | ⟨-, -, hc, he⟩
    · rw [he] at h
      cases h
    · rw [he] at h
      cases h
    · rw [he] at h
      cases h
    · rw [he] at h
      cases h
      have h2 : 2 ≤ encSize p (opInput o s) := by
        unfold encSize
        omega
      exact ⟨⟨rfl, rfl, rfl, rfl⟩, (setSizeVal_outside p _ s).trans (writeOut_outside (by omega) _ _), rfl,
        rfl, rfl⟩
  · rcases encodeLoop_cases p o s hj with ⟨r, -, he⟩ | ⟨j, -, hj', hc, he⟩ | ⟨-, -, he⟩
    · rw [he] at h
      cases h
    · rw [he] at h
      cases h
      exact ⟨⟨rfl, rfl, rfl, rfl⟩,
        memWriteList_outside _ (by rw [wireForm_length, wireWeight_encodedByte]; omega) _, rfl, rfl, rfl⟩
    · rw [he] at h
      cases h

theorem decodeStep_goesOn {p : Params} {o o' : OpState} {s s' : State}
    (h : decodeStep p o s = .running o' s') : GoesOn p o s o' s' ∧ s'.sizeVal = s.sizeVal := by
  unfold decodeStep at h
  split at h
  · cases h
  · have he := scanStep_effect p o s
    rw [h] at he
    cases he with
    | scanned _ hs => exact ⟨⟨hs.toSameOperation, .refl p s, rfl, rfl, rfl⟩, rfl⟩
    | appended _ v hs _ _ _ hc => exact ⟨⟨hs.toSameOperation, writeOut_outside hc _ _, rfl, rfl, rfl⟩, rfl⟩
    | toFinal _ hs => exact ⟨⟨hs.toSameOperation, .refl p s, rfl, rfl, rfl⟩, rfl⟩
    | tailAppended _ v hs _ _ _ _ hc => exact ⟨⟨hs.toSameOperation, writeOut_outside hc _ _, rfl, rfl, rfl⟩, rfl⟩

/-- The completion of ENCODE (R131, R134): the last step writes at most the END byte, and leaves the result. -/
theorem encodeStep_ends {p : Params} {o : OpState} {s t : State} (h : encodeStep p o s = .finished t) :
    OutsideUnchanged p s t ∧ t.op = none ∧
      ∃ c, c ≠ .none ∧ t.status = finishStatus c s.status := by
  by_cases hj : o.j = 0
  · rcases encodeBegin_cases p o s hj with ⟨-, he⟩ | ⟨-, -, he⟩ | ⟨-, -, -, he⟩ | ⟨-, -, hc, he⟩
    · rw [he] at h
      cases h
      exact ⟨(setOutLen_outside p _ s).trans (finish_outside p _ _), rfl, _, by simp, rfl⟩
    · rw [he] at h
      cases h
    · rw [he] at h
      cases h
      exact ⟨(setSizeVal_outside p _ s).trans ((setOutLen_outside p _ _).trans (finish_outside p _ _)), rfl,
        _, by simp, rfl⟩
    · rw [he] at h
      cases h
  · rcases encodeLoop_cases p o s hj with ⟨r, -, he⟩ | ⟨j, -, hj', hc, he⟩ | ⟨-, hc, he⟩
    · rw [he] at h
      cases h
    · rw [he] at h
      cases h
    · rw [he] at h
      cases h
      exact ⟨(writeOut_outside hc _ s).trans ((setOutLen_outside p _ _).trans (finish_outside p _ _)), rfl, _,
        by simp, rfl⟩

/-- The completion of DECODE (R152, R154). -/
theorem decodeStep_ends {p : Params} {o : OpState} {s t : State} (h : decodeStep p o s = .finished t) :
    ∃ c n, c ≠ .none ∧ (n = 0 ∨ n = o.cnt) ∧ t = finish c (setOutLen n s) := by
  unfold decodeStep at h
  split at h
  · cases h
    exact ⟨_, _, by simp, .inl rfl, rfl⟩
  · have he := scanStep_effect p o s
    rw [h] at he
    cases he with
    | ended c n hc _ hn => exact ⟨c, n, hc, hn, rfl⟩
    | overflowed => exact ⟨_, _, by simp, .inl rfl, rfl⟩

theorem microStep_goesOn {p : Params} {o o' : OpState} {s s' : State}
    (h : microStep p o s = .running o' s') : GoesOn p o s o' s' := by
  unfold microStep at h
  split at h
  · exact encodeStep_goesOn h
  · exact (decodeStep_goesOn h).1
  · rcases sizeStep_cases p o s with ⟨-, he⟩ | ⟨-, he⟩ <;> rw [he] at h <;> cases h
  · cases h
  · cases h

end Sys2Proof.Machine
end

