-- ==== Sys2Proof/Laws/Progress.lean ====
section
/-! SUPPORT. The running operation as a whole (40_command.md R113, R114): `exec` is the run of its internal steps,
the steps come to an end, and neither what the host does nor the model's own fields change what they compute. -/

namespace Sys2Proof.Machine

/-- The internal step that a meaning runs. -/
def stepOf : Instr → OpState → State → Micro
  | .encode => encodeStep Config.build
  | .decode => decodeStep Config.build
  | .size => sizeStep Config.build
  | .badCommandOp0 => badStep
  | .badCommandRsvd _ _ => badStep

/-- A meaning runs the internal steps of its instruction. -/
theorem exec_stepOf {s : State} {o : OpState} (i : Instr) (h : s.op = some o) :
    exec i s = runOp (stepOf i) (stepBound o) o s := by
  cases i <;> exact runCommand_some h

theorem stepOf_microStep (o : OpState) (s : State) : stepOf o.opr o s = microStep Config.build o s := by
  unfold stepOf microStep
  cases o.opr <;> rfl

theorem runOp_microStep {i : Instr} (fuel : Nat) {o : OpState} {s : State} (ho : o.opr = i) :
    runOp (stepOf i) fuel o s = runOp (microStep Config.build) fuel o s := by
  induction fuel generalizing o s with
  | zero => rfl
  | succ f ih =>
    rw [runOp_succ, runOp_succ, ← stepOf_microStep, ho]
    cases h : stepOf i o s with
    | running o' s' =>
      dsimp only
      apply ih
      rw [← ho, stepOf_microStep] at h
      rw [(microStep_goesOn h).same.opr, ho]
    | finished t => rfl
    | fault r => rfl

/-- The accepted command is run by the internal steps of its own operation. -/
theorem exec_microStep {s : State} {o : OpState} (h : s.op = some o) :
    exec o.opr s = runOp (microStep Config.build) (stepBound o) o s := by
  rw [exec_stepOf _ h, runOp_microStep _ rfl]

/-- What the last internal step leaves, whatever the operation is (R115). -/
theorem microStep_ends {p : Params} {o : OpState} {s t : State} (h : microStep p o s = .finished t) :
    OutsideUnchanged p s t ∧ t.op = none ∧ ∃ c, c ≠ .none ∧ t.status = finishStatus c s.status := by
  unfold microStep at h
  split at h
  · exact encodeStep_ends h
  · obtain ⟨c, n, hc, -, rfl⟩ := decodeStep_ends h
    exact ⟨(setOutLen_outside p _ _).trans (finish_outside p _ _), rfl, c, hc, rfl⟩
  · rcases sizeStep_cases p o s with ⟨-, he⟩ | ⟨-, he⟩ <;> rw [he] at h <;> cases h
    exact ⟨(setSizeVal_outside p _ _).trans (finish_outside p _ _), rfl, _, by simp, rfl⟩
  · cases h
    exact ⟨finish_outside p _ _, rfl, _, by simp, rfl⟩
  · cases h
    exact ⟨finish_outside p _ _, rfl, _, by simp, rfl⟩

/-- What a run of internal steps leaves when the operation completes (R61, R113, R115). -/
theorem runOp_microStep_ends {p : Params} {fuel : Nat} {o : OpState} {s t : State}
    (h : runOp (microStep p) fuel o s = .next t) :
    OutsideUnchanged p s t ∧ t.op = none ∧ ∃ c, c ≠ .none ∧ t.status = finishStatus c s.status := by
  refine runOp_induction (P := fun _ s' => OutsideUnchanged p s s' ∧ s'.status = s.status)
    (Q := fun t => OutsideUnchanged p s t ∧ t.op = none ∧ ∃ c, c ≠ .none ∧ t.status = finishStatus c s.status)
    ?_ ?_ ⟨.refl p s, rfl⟩ h
  · rintro o1 s1 o2 s2 ⟨h1, h2⟩ hr
    have g := microStep_goesOn hr
    exact ⟨h1.trans g.outside, g.status.trans h2⟩
  · rintro o1 s1 t1 ⟨h1, h2⟩ hr
    obtain ⟨h3, h4, c, hc, h5⟩ := microStep_ends hr
    exact ⟨h1.trans h3, h4, c, hc, by rw [h5, h2]⟩

/-- An upper bound on the internal steps that are left. -/
def stepsLeft (o : OpState) : Nat :=
  match o.opr with
  | .encode => if o.j = 0 then o.n + 2 else (o.n - o.k) + 1
  | .decode => if o.dstate = .final then 1 else (o.n - o.i) + 2
  | .size => 1
  | .badCommandOp0 => 1
  | .badCommandRsvd _ _ => 1

theorem stepsLeft_pos (o : OpState) : 1 ≤ stepsLeft o := by
  unfold stepsLeft
  split <;> first | omega | (split <;> omega)

theorem stepsLeft_le (o : OpState) : stepsLeft o ≤ o.n + 2 := by
  unfold stepsLeft
  split <;> first | omega | (split <;> omega)

theorem encodeStep_stepsLeft {p : Params} {o o' : OpState} {s s' : State} (hopr : o.opr = .encode)
    (h : encodeStep p o s = .running o' s') : stepsLeft o' < stepsLeft o := by
  by_cases hj : o.j = 0
  · rcases encodeBegin_cases p o s hj with ⟨-, he⟩ | ⟨-, -, he⟩ | ⟨-, -, -, he⟩ | ⟨-, -, -, he⟩ <;>
      rw [he] at h <;> cases h
    simp [stepsLeft, hopr, hj]
  · rcases encodeLoop_cases p o s hj with ⟨r, -, he⟩ | ⟨j, hk, hj', -, he⟩ | ⟨-, -, he⟩ <;>
      rw [he] at h <;> cases h
    simp only [stepsLeft, hopr, if_neg hj, if_neg (show ¬ j = 0 by omega)]
    omega

theorem scanStep_stepsLeft {p : Params} {o o' : OpState} {s s' : State} (hopr : o.opr = .decode)
    (h : scanStep p o s = .running o' s') : stepsLeft o' < stepsLeft o := by
  have key : SameButScan o o' → o.dstate ≠ .final →
      (o'.i = o.i + 1 ∧ o.i < o.n ∧ o'.dstate ≠ .final ∨ o'.i = o.i ∧ o'.dstate = .final) →
      stepsLeft o' < stepsLeft o := by
    intro hs hnf hx
    simp only [stepsLeft, hs.opr, hopr, hs.n, if_neg hnf]
    rcases hx with ⟨x1, x2, x3⟩ | ⟨x1, x2⟩
    · rw [if_neg x3]
      omega
    · rw [if_pos x2]
      omega
  have he := scanStep_effect p o s
  rw [h] at he
  cases he with
  | scanned _ hs e1 e2 e3 =>
    refine key hs ?_ (.inl ⟨e1, e2, ?_⟩)
    · rcases e3 with ⟨h, -⟩ | ⟨h, -⟩ | ⟨h, -⟩ <;> rw [h] <;> simp
    · rcases e3 with ⟨-, h | h, -⟩ | ⟨-, h, -⟩ | ⟨-, h, -⟩ <;> rw [h] <;> simp
  | appended _ v hs e1 e2 _ _ e5 e6 =>
    refine key hs ?_ (.inl ⟨e1, e2, by rw [e5]; simp⟩)
    rcases e6 with ⟨h, -⟩ | h <;> rw [h] <;> simp
  | toFinal _ hs e1 e2 e3 => exact key hs (by rw [e2]; simp) (.inr ⟨e1, e3⟩)
  | tailAppended _ v hs e1 e2 e3 => exact key hs (by rw [e2]; simp) (.inr ⟨e1, e3⟩)

/-- Every internal step lowers the bound, in every state (R114). -/
theorem microStep_stepsLeft {p : Params} {o o' : OpState} {s s' : State}
    (h : microStep p o s = .running o' s') : stepsLeft o' < stepsLeft o := by
  unfold microStep at h
  cases hopr : o.opr with
  | encode =>
    rw [hopr] at h
    exact encodeStep_stepsLeft hopr h
  | decode =>
    rw [hopr] at h
    dsimp only at h
    unfold decodeStep at h
    split at h
    · cases h
    · exact scanStep_stepsLeft hopr h
  | size =>
    rw [hopr] at h
    dsimp only at h
    rcases sizeStep_cases p o s with ⟨-, he⟩ | ⟨-, he⟩ <;> rw [he] at h <;> cases h
  | badCommandOp0 =>
    rw [hopr] at h
    cases h
  | badCommandRsvd =>
    rw [hopr] at h
    cases h

/-- No internal step reports that an operation did not end. -/
theorem microStep_ne_unfinished (p : Params) (o : OpState) (s : State) :
    microStep p o s ≠ .fault .unfinished := by
  intro hm
  unfold microStep at hm
  split at hm
  · by_cases hj : o.j = 0
    · rcases encodeBegin_cases p o s hj with ⟨-, he⟩ | ⟨-, -, he⟩ | ⟨-, -, -, he⟩ | ⟨-, -, -, he⟩ <;>
        rw [he] at hm <;> cases hm
    · rcases encodeLoop_cases p o s hj with ⟨r, hr, he⟩ | ⟨j, -, -, -, he⟩ | ⟨-, -, he⟩ <;>
        rw [he] at hm <;> cases hm
      exact hr rfl
  · unfold decodeStep at hm
    split at hm
    · cases hm
    · have he := scanStep_effect p o s
      rw [hm] at he
      cases he
  · rcases sizeStep_cases p o s with ⟨-, he⟩ | ⟨-, he⟩ <;> rw [he] at hm <;> cases hm
  · cases hm
  · cases hm

/-- A run with as many internal steps as are left ends: it completes, or a guard of the model stops it. -/
theorem runOp_ends {p : Params} {fuel : Nat} {o : OpState} {s : State} (h : stepsLeft o ≤ fuel) :
    runOp (microStep p) fuel o s ≠ .fault .unfinished := by
  induction fuel generalizing o s with
  | zero =>
    have := stepsLeft_pos o
    omega
  | succ f ih =>
    rw [runOp_succ]
    cases hm : microStep p o s with
    | running o' s' =>
      have := microStep_stepsLeft hm
      exact ih (by omega)
    | finished t => simp
    | fault r =>
      intro hh
      have hr : r = .unfinished := by simpa using hh
      exact microStep_ne_unfinished p o s (hr ▸ hm)

/-- A state with other values of what no operation reads or writes: the operation's own record, the host's
queue and responses, the draws, and WERR. -/
def withHostSide (op : Option OpState) (q : List HostEvent) (r : List BusResponse) (n : Nat) (w : Bool)
    (s : State) : State :=
  { s with op := op, hostQueue := q, responses := r, draws := n, status := { s.status with werr := w } }

/-- An internal step with the state it leaves changed. -/
def Micro.mapState (f g : State → State) : Micro → Micro
  | .running o s => .running o (f s)
  | .finished s => .finished (g s)
  | .fault r => .fault r

/-- An internal step with the duration in the state it goes on with changed. -/
def Micro.mapWait (w : Nat) : Micro → Micro
  | .running o s => .running { o with wait := w } s
  | .finished s => .finished s
  | .fault r => .fault r

section HostSide

variable (p : Params) (op : Option OpState) (q : List HostEvent) (r : List BusResponse) (n : Nat) (w : Bool)

theorem append_hostSide (v : Byte) (o : OpState) (s : State) :
    append p v o (withHostSide op q r n w s) =
      (append p v o s).mapState (withHostSide op q r n w) (withHostSide none q r n w) := by
  unfold append
  split <;> rfl

theorem readIn_hostSide (o : OpState) (k : Nat) (s : State) :
    readIn p o k (withHostSide op q r n w s) = readIn p o k s := rfl

theorem readAgain_hostSide (o : OpState) (k : Nat) (s : State) :
    readAgain p o k (withHostSide op q r n w s) = readAgain p o k s := rfl

theorem readInput_hostSide (o : OpState) (s : State) :
    readInput p o (withHostSide op q r n w s) = readInput p o s := rfl

theorem emit_hostSide (v : Byte) (o : OpState) (s : State) :
    emit p v o (withHostSide op q r n w s) =
      match emit p v o s with
      | .ok (o', s') => .ok (o', withHostSide op q r n w s')
      | .error e => .error e := by
  unfold emit
  split <;> rfl

theorem emitAll_hostSide (vs : List Byte) (o : OpState) (s : State) :
    emitAll p vs o (withHostSide op q r n w s) =
      match emitAll p vs o s with
      | .ok (o', s') => .ok (o', withHostSide op q r n w s')
      | .error e => .error e := by
  induction vs generalizing o s with
  | nil => rfl
  | cons v vs ih =>
    unfold emitAll
    rw [emit_hostSide]
    cases emit p v o s with
    | error e => rfl
    | ok x => exact ih x.1 x.2

theorem encodeStep_hostSide (o : OpState) (s : State) :
    encodeStep p o (withHostSide op q r n w s) =
      (encodeStep p o s).mapState (withHostSide op q r n w) (withHostSide none q r n w) := by
  unfold encodeStep
  split
  · unfold encodeBegin
    split
    · rfl
    · rw [readInput_hostSide]
      cases readInput p o s with
      | error e => rfl
      | ok l =>
        dsimp only
        split
        · rfl
        · rw [show setSizeVal (encSize p l) (withHostSide op q r n w s) =
            withHostSide op q r n w (setSizeVal (encSize p l) s) from rfl, emit_hostSide]
          cases emit p p.startByte o (setSizeVal (encSize p l) s) <;> rfl
  · split
    · unfold encodeByte
      rw [readAgain_hostSide]
      cases readAgain p o o.k s with
      | error e => rfl
      | ok b =>
        dsimp only
        rw [show inByte o.draw o.k (withHostSide op q r n w s) = inByte o.draw o.k s from rfl, emitAll_hostSide]
        cases emitAll p (wireForm p (secondRead p (inByte o.draw o.k s) b)) o s <;> rfl
    · unfold encodeEnd
      rw [emit_hostSide]
      cases emit p p.endByte o s <;> rfl

theorem decodeBody_hostSide (o : OpState) (s : State) :
    decodeBody p o (withHostSide op q r n w s) =
      (decodeBody p o s).mapState (withHostSide op q r n w) (withHostSide none q r n w) := by
  unfold decodeBody
  split
  · cases p.tailMode with
    | skip => rfl
    | literal =>
      dsimp only
      unfold decodeTail
      split
      · rw [readIn_hostSide]
        cases readIn p o o.i s with
        | error e => rfl
        | ok b =>
          dsimp only
          repeat' split
          all_goals first | rfl | exact append_hostSide ..
      · rfl
  · rw [readIn_hostSide]
    cases readIn p o o.i s with
    | error e => rfl
    | ok b =>
      dsimp only
      repeat' split
      all_goals first | rfl | exact append_hostSide ..

theorem decodeStep_hostSide (o : OpState) (s : State) :
    decodeStep p o (withHostSide op q r n w s) =
      (decodeStep p o s).mapState (withHostSide op q r n w) (withHostSide none q r n w) := by
  unfold decodeStep
  split
  · rfl
  · unfold scanStep
    split
    · unfold decodeSeek
      split
      · rfl
      · rw [readIn_hostSide]
        cases readIn p o o.i s with
        | error e => rfl
        | ok b =>
          dsimp only
          split <;> rfl
    · exact decodeBody_hostSide p op q r n w o s
    · unfold decodeEsc
      rw [readIn_hostSide]
      cases readIn p o o.i s with
      | error e => rfl
      | ok b =>
        dsimp only
        cases reservedOf p b with
        | none => rfl
        | some v => exact append_hostSide ..
    · unfold decodeFinal
      rw [readAgain_hostSide]
      cases readAgain p o (o.n - 1) s with
      | error e => rfl
      | ok b =>
        dsimp only
        split <;> rfl

/-- An internal step computes the same whatever the host's side holds (R64, R66). -/
theorem microStep_hostSide (o : OpState) (s : State) :
    microStep p o (withHostSide op q r n w s) =
      (microStep p o s).mapState (withHostSide op q r n w) (withHostSide none q r n w) := by
  unfold microStep
  split
  · exact encodeStep_hostSide p op q r n w o s
  · exact decodeStep_hostSide p op q r n w o s
  · unfold sizeStep
    rw [readInput_hostSide]
    cases readInput p o s <;> rfl
  · rfl
  · rfl

/-- A running operation computes the same whatever the host's side holds. -/
theorem runOp_hostSide (fuel : Nat) (o : OpState) (s : State) :
    runOp (microStep p) fuel o (withHostSide op q r n w s) =
      match runOp (microStep p) fuel o s with
      | .next t => .next (withHostSide none q r n w t)
      | .fault e => .fault e
      | .refused e => .refused e := by
  induction fuel generalizing o s with
  | zero => rfl
  | succ f ih =>
    rw [runOp_succ, runOp_succ, microStep_hostSide]
    cases microStep p o s with
    | running o' s' => exact ih o' s'
    | finished t => rfl
    | fault e => rfl

end HostSide

/-- What the record of the running operation holds is no input of its internal steps. -/
theorem runOp_op {p : Params} (fuel : Nat) (o : OpState) (s : State) (op : Option OpState) :
    runOp (microStep p) fuel o { s with op := op } = runOp (microStep p) fuel o s := by
  rw [show ({ s with op := op } : State) =
    withHostSide op s.hostQueue s.responses s.draws s.status.werr s from rfl, runOp_hostSide]
  cases hr : runOp (microStep p) fuel o s with
  | next t =>
    obtain ⟨h2, h1, -⟩ := runOp_microStep_ends hr
    dsimp only
    unfold withHostSide
    rw [← h1, ← h2.hostQueue, ← h2.responses, ← h2.draws, ← h2.werr]
  | fault e => rfl
  | refused e => rfl

section Wait

variable (p : Params) (w : Nat)

theorem append_wait (v : Byte) (o : OpState) (s : State) :
    append p v { o with wait := w } s = (append p v o s).mapWait w := by
  unfold append
  dsimp only
  split <;> rfl

theorem readIn_wait (o : OpState) (k : Nat) (s : State) :
    readIn p { o with wait := w } k s = readIn p o k s := rfl

theorem readAgain_wait (o : OpState) (k : Nat) (s : State) :
    readAgain p { o with wait := w } k s = readAgain p o k s := rfl

theorem readInput_wait (o : OpState) (s : State) :
    readInput p { o with wait := w } s = readInput p o s := rfl

theorem emit_wait (v : Byte) (o : OpState) (s : State) :
    emit p v { o with wait := w } s =
      match emit p v o s with
      | .ok (o', s') => .ok ({ o' with wait := w }, s')
      | .error e => .error e := by
  unfold emit
  dsimp only
  split <;> rfl

theorem emitAll_wait (vs : List Byte) (o : OpState) (s : State) :
    emitAll p vs { o with wait := w } s =
      match emitAll p vs o s with
      | .ok (o', s') => .ok ({ o' with wait := w }, s')
      | .error e => .error e := by
  induction vs generalizing o s with
  | nil => rfl
  | cons v vs ih =>
    unfold emitAll
    rw [emit_wait]
    cases emit p v o s with
    | error e => rfl
    | ok x => exact ih x.1 x.2

theorem encodeStep_wait (o : OpState) (s : State) :
    encodeStep p { o with wait := w } s = (encodeStep p o s).mapWait w := by
  unfold encodeStep
  dsimp only
  split
  · unfold encodeBegin
    dsimp only
    split
    · rfl
    · rw [readInput_wait]
      cases readInput p o s with
      | error e => rfl
      | ok l =>
        dsimp only
        split
        · rfl
        · rw [emit_wait]
          cases emit p p.startByte o (setSizeVal (encSize p l) s) <;> rfl
  · split
    · unfold encodeByte
      dsimp only
      rw [readAgain_wait]
      cases readAgain p o o.k s with
      | error e => rfl
      | ok b =>
        dsimp only
        rw [emitAll_wait]
        cases emitAll p (wireForm p (secondRead p (inByte o.draw o.k s) b)) o s <;> rfl
    · unfold encodeEnd
      rw [emit_wait]
      cases emit p p.endByte o s <;> rfl

theorem decodeBody_wait (o : OpState) (s : State) :
    decodeBody p { o with wait := w } s = (decodeBody p o s).mapWait w := by
  unfold decodeBody
  dsimp only
  split
  · cases p.tailMode with
    | skip => rfl
    | literal =>
      dsimp only
      unfold decodeTail
      dsimp only
      split
      · rw [readIn_wait]
        cases readIn p o o.i s with
        | error e => rfl
        | ok b =>
          dsimp only
          split
          · rfl
          · split
            · rfl
            · exact append_wait p w b { o with dstate := .final } s
      · rfl
  · rw [readIn_wait]
    cases readIn p o o.i s with
    | error e => rfl
    | ok b =>
      dsimp only
      split
      · rfl
      · split
        · rfl
        · split
          · rfl
          · exact append_wait p w b { o with i := o.i + 1 } s

theorem decodeStep_wait (o : OpState) (s : State) :
    decodeStep p { o with wait := w } s = (decodeStep p o s).mapWait w := by
  unfold decodeStep
  dsimp only
  split
  · rfl
  · unfold scanStep
    dsimp only
    split
    · unfold decodeSeek
      dsimp only
      split
      · rfl
      · rw [readIn_wait]
        cases readIn p o o.i s with
        | error e => rfl
        | ok b =>
          dsimp only
          split <;> rfl
    · exact decodeBody_wait p w o s
    · unfold decodeEsc
      dsimp only
      rw [readIn_wait]
      cases readIn p o o.i s with
      | error e => rfl
      | ok b =>
        dsimp only
        cases reservedOf p b with
        | none => rfl
        | some v => exact append_wait p w v { o with i := o.i + 1, dstate := .body } s
    · unfold decodeFinal
      dsimp only
      rw [readAgain_wait]
      cases readAgain p o (o.n - 1) s with
      | error e => rfl
      | ok b =>
        dsimp only
        rw [show finalCheck p { o with wait := w } b = finalCheck p o b from rfl]
        split <;> rfl

/-- An internal step computes the same whatever the duration is (R114, R243). -/
theorem microStep_wait (o : OpState) (s : State) :
    microStep p { o with wait := w } s = (microStep p o s).mapWait w := by
  unfold microStep
  dsimp only
  split
  · exact encodeStep_wait p w o s
  · exact decodeStep_wait p w o s
  · unfold sizeStep
    rw [readInput_wait]
    cases readInput p o s <;> rfl
  · rfl
  · rfl

theorem runOp_wait (fuel : Nat) (o : OpState) (s : State) :
    runOp (microStep p) fuel { o with wait := w } s = runOp (microStep p) fuel o s := by
  induction fuel generalizing o s with
  | zero => rfl
  | succ f ih =>
    rw [runOp_succ, runOp_succ, microStep_wait]
    cases microStep p o s with
    | running o' s' => exact ih o' s'
    | finished t => rfl
    | fault e => rfl

end Wait

end Sys2Proof.Machine
end

