-- ==== Sys2Proof/Laws/Invariant.lean ====
section
/-! SUPPORT. What each part of a step does to the invariant of the block: an internal step, a completion, an
acceptance, a bus transaction, the host's turn; and that a running operation goes on or completes. -/

namespace Sys2Proof.Safety

open Sys2Proof.Machine

theorem inCap_eq : Config.build.inCap = 256 := rfl

theorem outCap_eq : Config.build.outCap = 256 := rfl

theorem inBase_eq : inBase = 0x10000 := rfl

theorem outBase_eq : outBase = 0x20000 := rfl

/-- A number of at most 16 bits is itself as a register value. -/
theorem toNat_ofNat_of_le {n : Nat} (h : n ≤ 65535) : (BitVec.ofNat 32 n).toNat = n := by
  rw [BitVec.toNat_ofNat, Nat.mod_eq_of_lt (by omega)]

/-- The operation's input is not in OUT_BUF, so nothing an operation writes changes it (R61, R64). -/
theorem opInput_outside {s s' : State} (h : OutsideUnchanged Config.build s s') {o o' : OpState}
    (hn : o.n ≤ 256) (h1 : o'.n = o.n) (h2 : o'.draw = o.draw) : opInput o' s' = opInput o s := by
  refine opInput_congr h1 h2 fun k hk => h.bytes _ fun j _ => ?_
  rw [inBase_eq, outBase_eq]
  omega

/-- The range of a computed SIZE_VAL (R31). -/
theorem sizeVal_range {o : OpState} {s : State} (hn : o.n ≤ 256) :
    2 ≤ (BitVec.ofNat 32 (encSize Config.build (opInput o s))).toNat ∧
      (BitVec.ofNat 32 (encSize Config.build (opInput o s))).toNat ≤ 2 + 2 * Config.build.inCap := by
  have h1 := two_le_encSize Config.build (opInput o s)
  have h2 := encSize_le Config.build (opInput o s)
  rw [opInput_length] at h2
  rw [toNat_ofNat_of_le (by omega), inCap_eq]
  omega

/-- Every command word decodes to a well-formed instruction (R82). -/
theorem wellFormed_decodeCmd (v : Word) : wellFormed (decodeCmd v) = true := by
  unfold decodeCmd
  split
  · rename_i h
    simpa [wellFormed] using h
  · repeat' split
    all_goals rfl

/-- The invariant holds of the internal state of an ENCODE that goes on. -/
theorem opInvariant_encodeStep {o o' : OpState} {s s' : State} (hop : OpInvariant Config.build s o)
    (hn : o.n ≤ 256) (h : encodeStep Config.build o s = .running o' s') : OpInvariant Config.build s' o' := by
  have g := encodeStep_goesOn h
  have hinp : opInput o' s' = opInput o s := opInput_outside g.outside hn g.same.n g.same.draw
  have lat : o'.n = s'.inLen.toNat := by rw [g.same.n, g.outside.inLen, hop.latched]
  have hwf : wellFormed o'.opr = true := by rw [g.same.opr, hop.opWellFormed]
  by_cases hj : o.j = 0
  · rcases encodeBegin_cases Config.build o s hj with ⟨-, he⟩ | ⟨-, -, he⟩ | ⟨-, -, -, he⟩ | ⟨h1, -, hc, he⟩ <;>
      rw [he] at h <;> cases h
    refine ⟨hwf, lat, hop.scanIndex, hop.countBelowIndex, hop.countRange, hop.escInside, hop.inputIndex,
      (by rw [outCap_eq]; simp), by simp, fun _ => ?_⟩
    rw [hinp]
    exact ⟨h1, hc, by simp [hop.encodeBegins hj]⟩
  · rcases encodeLoop_cases Config.build o s hj with ⟨r, -, he⟩ | ⟨j, hk, hj', hc, he⟩ | ⟨-, -, he⟩ <;>
      rw [he] at h <;> cases h
    refine ⟨hwf, lat, hop.scanIndex, hop.countBelowIndex, hop.countRange, hop.escInside, hk, hc,
      fun h0 => ?_, fun _ => ?_⟩
    · simp only at h0
      omega
    · obtain ⟨a, b, c⟩ := hop.encodeCount (by omega)
      rw [hinp]
      refine ⟨a, b, ?_⟩
      have hl : o.k < (opInput o s).length := by simpa using hk
      have hg := opInput_getElem? o s hk
      rw [List.getElem?_eq_getElem hl] at hg
      simp only
      rw [hj', List.take_succ_eq_append_getElem hl, Option.some.inj hg]
      simp only [List.map_append, List.sum_append, List.map_cons, List.map_nil, List.sum_cons, List.sum_nil]
      omega

/-- The invariant holds of the internal state of a DECODE that goes on. -/
theorem opInvariant_decodeStep {o o' : OpState} {s s' : State} (hop : OpInvariant Config.build s o)
    (hn : o.n ≤ 256) (h : decodeStep Config.build o s = .running o' s') : OpInvariant Config.build s' o' := by
  have g := (decodeStep_goesOn h).1
  have hinp : opInput o' s' = opInput o s := opInput_outside g.outside hn g.same.n g.same.draw
  have lat : o'.n = s'.inLen.toNat := by rw [g.same.n, g.outside.inLen, hop.latched]
  have hwf : wellFormed o'.opr = true := by rw [g.same.opr, hop.opWellFormed]
  have a1 := hop.scanIndex
  have a2 := hop.countBelowIndex
  have a3 := hop.countRange
  have rest : SameButScan o o' → o'.i ≤ o'.n → o'.cnt ≤ o'.i → o'.cnt ≤ Config.build.outCap →
      (o'.dstate = .esc → o'.i < o'.n) → OpInvariant Config.build s' o' := by
    intro hs b1 b2 b3 b4
    refine ⟨hwf, lat, b1, b2, b3, b4, by rw [hs.k, hs.n]; exact hop.inputIndex,
      by rw [hs.j]; exact hop.outputIndex, by rw [hs.k, hs.j]; exact hop.encodeBegins, ?_⟩
    rw [hinp, hs.n, hs.j, hs.k]
    exact hop.encodeCount
  unfold decodeStep at h
  split at h
  · cases h
  · have he := scanStep_effect Config.build o s
    rw [h] at he
    cases he with
    | scanned _ hs e1 e2 e3 =>
      have hc : o'.cnt = o.cnt ∨ o'.cnt = 0 := by
        rcases e3 with ⟨-, -, e⟩ | ⟨-, -, e⟩ | ⟨-, -, e, -⟩
        · exact .inl e
        · exact .inr e
        · exact .inl e
      refine rest hs (by rw [hs.n]; omega) (by omega) (by omega) fun hx => ?_
      rcases e3 with ⟨-, e | e, -⟩ | ⟨-, e, -⟩ | ⟨-, -, -, e⟩
      · rw [e] at hx
        cases hx
      · rw [e] at hx
        cases hx
      · rw [e] at hx
        cases hx
      · rw [hs.n]
        omega
    | appended _ v hs e1 e2 e3 e4 e5 =>
      exact rest hs (by rw [hs.n]; omega) (by omega) (by omega) (by rw [e5]; simp)
    | toFinal _ hs e1 e2 e3 e4 =>
      exact rest hs (by rw [hs.n]; omega) (by omega) (by omega) (by rw [e3]; simp)
    | tailAppended _ v hs e1 e2 e3 e4 e5 e6 => cases e6

/-- The invariant of a state with the operation `o` running is kept by an internal step that goes on. -/
theorem invariant_goesOn {o o' : OpState} {s s' : State} (hi : Invariant Config.build { s with op := some o })
    (h : microStep Config.build o s = .running o' s') : Invariant Config.build { s' with op := some o' } := by
  have g := microStep_goesOn h
  have hop := hi.opInvariant o rfl
  have hn : o.n ≤ 256 := by
    rw [hop.latched]
    exact hi.inLenRange
  have hop0 : OpInvariant Config.build s o := ⟨hop.1, hop.2, hop.3, hop.4, hop.5, hop.6, hop.7, hop.8, hop.9, hop.10⟩
  have key : OpInvariant Config.build s' o' ∧ (s'.sizeVal = s.sizeVal ∨
      s'.sizeVal = BitVec.ofNat 32 (encSize Config.build (opInput o s))) := by
    unfold microStep at h
    split at h
    · refine ⟨opInvariant_encodeStep hop0 hn h, ?_⟩
      by_cases hj : o.j = 0
      · rcases encodeBegin_cases Config.build o s hj with ⟨-, he⟩ | ⟨-, -, he⟩ | ⟨-, -, -, he⟩ | ⟨-, -, -, he⟩ <;>
          rw [he] at h <;> cases h
        exact .inr rfl
      · rcases encodeLoop_cases Config.build o s hj with ⟨r, -, he⟩ | ⟨j, -, -, -, he⟩ | ⟨-, -, he⟩ <;>
          rw [he] at h <;> cases h
        exact .inl rfl
    · exact ⟨opInvariant_decodeStep hop0 hn h, .inl (decodeStep_goesOn h).2⟩
    · rcases sizeStep_cases Config.build o s with ⟨-, he⟩ | ⟨-, he⟩ <;> rw [he] at h <;> cases h
    · cases h
    · cases h
  have hsz : s'.sizeVal = 0 ∨ (2 ≤ s'.sizeVal.toNat ∧ s'.sizeVal.toNat ≤ 2 + 2 * Config.build.inCap) := by
    rcases key.2 with e | e
    · rw [e]
      exact hi.sizeValRange
    · rw [e]
      exact .inr (sizeVal_range hn)
  refine ⟨g.outside.canonical hi.memCanonical, fun c hc => ?_, ?_, ?_, hsz, ?_, ?_, ?_, ?_⟩
  · rcases g.outside.listed c hc with hc | ⟨k, hk, hc⟩
    · exact hi.memMapped c hc
    · rw [hc]
      exact .inr ⟨by omega, by omega⟩
  · show s'.inLen.toNat ≤ _
    rw [g.outside.inLen]
    exact hi.inLenRange
  · show s'.outLen.toNat ≤ _
    rw [g.outLen]
    exact hi.outLenRange
  · show s'.status.busy = _
    rw [g.status]
    exact hi.busyWhileRunning
  · show ¬ (s'.status.busy = true ∧ _)
    rw [g.status]
    exact hi.busyExcludesDone
  · show s'.status.result ≠ _ ↔ _
    rw [g.status]
    exact hi.resultWhenDone
  · intro o'' ho''
    obtain rfl : o' = o'' := Option.some.inj ho''
    have k := key.1
    exact ⟨k.1, k.2, k.3, k.4, k.5, k.6, k.7, k.8, k.9, k.10⟩

/-- The invariant holds after a completion. -/
theorem invariant_completed {o : OpState} {s t : State} (hi : Invariant Config.build { s with op := some o })
    (hf : OutsideUnchanged Config.build s t ∧ t.op = none ∧ ∃ c, c ≠ .none ∧ t.status = finishStatus c s.status)
    (h1 : t.outLen.toNat ≤ 256)
    (h2 : t.sizeVal = 0 ∨ (2 ≤ t.sizeVal.toNat ∧ t.sizeVal.toNat ≤ 2 + 2 * Config.build.inCap)) :
    Invariant Config.build t := by
  obtain ⟨hf, hop, c, hc, hst⟩ := hf
  refine ⟨hf.canonical hi.memCanonical, fun c hc => ?_, by rw [hf.inLen]; exact hi.inLenRange, h1, h2,
    by rw [hst, hop]; rfl, by rw [hst]; simp, by rw [hst]; simp [hc], fun o ho => by rw [hop] at ho; cases ho⟩
  rcases hf.listed c hc with hc | ⟨k, hk, hc⟩
  · exact hi.memMapped c hc
  · rw [hc]
    exact .inr ⟨by omega, by omega⟩

/-- The invariant is kept by the internal step that completes an operation. -/
theorem invariant_ends {o : OpState} {s t : State} (hi : Invariant Config.build { s with op := some o })
    (h : microStep Config.build o s = .finished t) : Invariant Config.build t := by
  have hop := hi.opInvariant o rfl
  have hn : o.n ≤ 256 := by
    rw [hop.latched]
    exact hi.inLenRange
  refine invariant_completed hi (microStep_ends h) ?_ ?_
  all_goals
    unfold microStep at h
    split at h
  · by_cases hj : o.j = 0
    · rcases encodeBegin_cases Config.build o s hj with ⟨-, he⟩ | ⟨-, -, he⟩ | ⟨-, -, -, he⟩ | ⟨-, -, -, he⟩ <;>
        rw [he] at h <;> cases h <;> simp
    · rcases encodeLoop_cases Config.build o s hj with ⟨r, -, he⟩ | ⟨j, -, -, -, he⟩ | ⟨-, hc, he⟩ <;>
        rw [he] at h <;> cases h
      rw [outCap_eq] at hc
      simp only [finish_outLen, setOutLen_outLen]
      rw [toNat_ofNat_of_le (by omega)]
      omega
  · obtain ⟨c, n, -, hn', rfl⟩ := decodeStep_ends h
    have hcr := hop.countRange
    rw [outCap_eq] at hcr
    simp only [finish_outLen, setOutLen_outLen]
    rw [toNat_ofNat_of_le (by omega)]
    omega
  · rcases sizeStep_cases Config.build o s with ⟨-, he⟩ | ⟨-, he⟩ <;> rw [he] at h <;> cases h
    exact hi.outLenRange
  · cases h
    exact hi.outLenRange
  · cases h
    exact hi.outLenRange
  · by_cases hj : o.j = 0
    · rcases encodeBegin_cases Config.build o s hj with ⟨-, he⟩ | ⟨-, -, he⟩ | ⟨-, -, -, he⟩ | ⟨-, -, -, he⟩ <;>
        rw [he] at h <;> cases h
      · exact hi.sizeValRange
      · exact .inr (sizeVal_range hn)
    · rcases encodeLoop_cases Config.build o s hj with ⟨r, -, he⟩ | ⟨j, -, -, -, he⟩ | ⟨-, hc, he⟩ <;>
        rw [he] at h <;> cases h
      exact hi.sizeValRange
  · obtain ⟨c, n, -, -, rfl⟩ := decodeStep_ends h
    exact hi.sizeValRange
  · rcases sizeStep_cases Config.build o s with ⟨-, he⟩ | ⟨-, he⟩ <;> rw [he] at h <;> cases h
    exact .inr (sizeVal_range hn)
  · cases h
    exact hi.sizeValRange
  · cases h
    exact hi.sizeValRange

/-- Changing the model's own fields, or WERR, keeps the invariant. -/
theorem invariant_hostSide {s : State} (h : Invariant Config.build s) (q : List HostEvent)
    (r : List BusResponse) (d : List Nat) (n x : Nat) (w : Bool) :
    Invariant Config.build { s with
      hostQueue := q, responses := r, durations := d, draws := n, outDraw := x,
      status := { s.status with werr := w } } := by
  refine ⟨h.memCanonical, h.memMapped, h.inLenRange, h.outLenRange, h.sizeValRange, h.busyWhileRunning,
    h.busyExcludesDone, h.resultWhenDone, fun o ho => ?_⟩
  have hop := h.opInvariant o ho
  exact ⟨hop.1, hop.2, hop.3, hop.4, hop.5, hop.6, hop.7, hop.8, hop.9, hop.10⟩

/-- The record of the running operation written back, with another duration. -/
theorem invariant_wait {s : State} {o : OpState} (w : Nat) (h : Invariant Config.build s) (ho : s.op = some o) :
    Invariant Config.build { s with op := some { o with wait := w } } := by
  have hop := h.opInvariant o ho
  refine ⟨h.memCanonical, h.memMapped, h.inLenRange, h.outLenRange, h.sizeValRange, ?_,
    h.busyExcludesDone, h.resultWhenDone, fun o' ho' => ?_⟩
  · rw [h.busyWhileRunning, ho]
    rfl
  · obtain rfl : { o with wait := w } = o' := Option.some.inj ho'
    exact ⟨hop.1, hop.2, hop.3, hop.4, hop.5, hop.6, hop.7, hop.8, hop.9, hop.10⟩

/-- The codec's work between two host turns keeps the invariant. -/
theorem invariant_advance {s : State} {o : OpState} (h : Invariant Config.build { s with op := some o }) :
    Invariant Config.build (advance Config.build o s) := by
  unfold advance
  cases hm : microStep Config.build o s with
  | running o' s' => exact invariant_goesOn h hm
  | finished t => exact h
  | fault r => exact h

/-- Acceptance keeps the invariant (R110). -/
theorem invariant_accept {s : State} (h : Invariant Config.build s) (v : Word) :
    Invariant Config.build (acceptCommand (decodeCmd v) s) := by
  refine ⟨h.memCanonical, h.memMapped, h.inLenRange, h.outLenRange, h.sizeValRange, rfl, by simp, by simp,
    fun o ho => ?_⟩
  obtain rfl : acceptedOp (decodeCmd v) s = o := Option.some.inj ho
  exact ⟨wellFormed_decodeCmd v, rfl, by simp, by simp, by simp, by simp, by simp, by simp, by simp, by simp⟩

/-- With BUSY = 0 no operation runs (R25). -/
theorem op_of_not_busy {s : State} (h : Invariant Config.build s) (hb : ¬ s.status.busy = true) :
    s.op = none := by
  have := h.busyWhileRunning
  cases ho : s.op with
  | none => rfl
  | some o =>
    rw [ho] at this
    exact absurd this hb

/-- A bus write keeps the invariant. -/
theorem invariant_busWrite {s : State} (h : Invariant Config.build s) (off : Offset) (d : BusData) :
    Invariant Config.build (busWrite Config.build off d s).2 := by
  have werr := fun w => invariant_hostSide h s.hostQueue s.responses s.durations s.draws s.outDraw w
  rcases busWrite_cases Config.build off d s with h' | ⟨v, rfl, rfl, h'⟩ | ⟨v, rfl, rfl, h'⟩ | ⟨v, rfl, rfl, h'⟩ |
    ⟨k, b, ⟨hk, hk2⟩, rfl, h'⟩ <;> rw [h']
  · exact h
  · simp only [writeCmd]
    split
    · exact werr true
    · exact invariant_accept h v
  · simp only [writeStatus]
    split
    · exact werr false
    · exact h
  · simp only [writeInLen]
    split
    · exact werr true
    · split
      · exact werr true
      · rename_i hb hv
        exact ⟨h.memCanonical, h.memMapped, by simpa using hv, h.outLenRange, h.sizeValRange,
          h.busyWhileRunning, h.busyExcludesDone, h.resultWhenDone, fun o ho => by
            exact absurd (op_of_not_busy h hb) (by rw [show s.op = some o from ho]; simp)⟩
  · simp only [writeInBuf]
    split
    · exact werr true
    · rename_i hb
      refine ⟨memWrite_wf h.memCanonical _ _, fun c hc => ?_, h.inLenRange, h.outLenRange, h.sizeValRange,
        h.busyWhileRunning, h.busyExcludesDone, h.resultWhenDone, fun o ho => ?_⟩
      · rcases mem_memWrite hc with rfl | hc
        · exact .inl ⟨by simp only; omega, by simp only; omega⟩
        · exact h.memMapped c hc
      · exact absurd (op_of_not_busy h hb) (by rw [show s.op = some o from ho]; simp)

/-- A bus read keeps the invariant. -/
theorem invariant_busRead {s : State} (h : Invariant Config.build s) (off : Offset) (n : Width) :
    Invariant Config.build (busRead Config.build off n s).2 := by
  rcases (busRead_cases Config.build off n s).1 with h' | h' <;> rw [h']
  · exact h
  · exact invariant_hostSide h s.hostQueue s.responses s.durations (s.draws + 1) s.outDraw s.status.werr

/-- Reset gives a state in which the invariant holds (R230). -/
theorem invariant_resetBlock (s : State) : Invariant Config.build (resetBlock s) := by
  constructor <;> simp [resetBlock, State.reset, Memory.wf, Status.reset]

/-- The host's turn keeps the invariant. -/
theorem invariant_hostTurn {s : State} (h : Invariant Config.build s) :
    Invariant Config.build (hostTurn Config.build s) := by
  have queue := fun q => invariant_hostSide h q s.responses s.durations s.draws s.outDraw s.status.werr
  have resp : ∀ r : BusResponse × State, Invariant Config.build r.2 → Invariant Config.build (respond r) :=
    fun r hr => invariant_hostSide hr r.2.hostQueue (r.1 :: r.2.responses) r.2.durations r.2.draws r.2.outDraw
      r.2.status.werr
  have polled : ∀ last rest, Invariant Config.build (poll Config.build last rest s) := fun last rest =>
    poll_eq Config.build last rest s ▸ invariant_hostSide h _ _ s.durations s.draws s.outDraw s.status.werr
  unfold hostTurn
  cases s.hostQueue with
  | nil => exact h
  | cons e rest =>
    dsimp only
    unfold hostEvent
    cases e with
    | read off n => exact resp _ (invariant_busRead (queue rest) off n)
    | write off d => exact resp _ (invariant_busWrite (queue rest) off d)
    | wait => exact polled _ _
    | waitIdle => exact polled _ _
    | rst => exact invariant_resetBlock _

theorem sum_take_le (l : List Nat) (k : Nat) : (l.take k).sum ≤ l.sum := by
  conv_rhs => rw [← List.take_append_drop k l, List.sum_append]
  omega

/-- An ENCODE in a state of the invariant is not stopped by a guard: its emits fit (R132). -/
theorem encodeStep_answers {o : OpState} {s : State} (hop : OpInvariant Config.build s o) (hn : o.n ≤ 256)
    (r : Fault) : encodeStep Config.build o s ≠ .fault r := by
  by_cases hj : o.j = 0
  · rcases encodeBegin_cases Config.build o s hj with ⟨-, he⟩ | ⟨-, h, he⟩ | ⟨-, -, -, he⟩ | ⟨-, -, -, he⟩ <;>
      rw [he] <;> simp
    rw [inCap_eq] at h
    omega
  · obtain ⟨-, h2, h3⟩ := hop.encodeCount (by omega)
    unfold encSize at h2
    unfold encodeStep
    rw [if_neg hj]
    by_cases hk : o.k < o.n
    · rw [if_pos hk]
      unfold encodeByte
      rw [readAgain_eq hk hn]
      dsimp only
      have hl : o.k < (opInput o s).length := by simpa using hk
      have hg := opInput_getElem? o s hk
      rw [List.getElem?_eq_getElem hl] at hg
      have hs := sum_take_le ((opInput o s).map (wireWeight Config.build)) (o.k + 1)
      rw [← List.map_take, List.take_succ_eq_append_getElem hl, Option.some.inj hg] at hs
      simp only [List.map_append, List.sum_append, List.map_cons, List.map_nil, List.sum_cons,
        List.sum_nil] at hs
      have hw := wireWeight_encodedByte Config.build o o.k s
      unfold encodedByte at hw
      rw [emitAll_eq _ (by rw [wireForm_length, hw]; omega)]
      simp
    · rw [if_neg hk]
      rw [List.take_of_length_le (by rw [opInput_length]; omega)] at h3
      unfold encodeEnd emit
      rw [if_pos (by omega)]
      simp

/-- A DECODE in a state of the invariant is not stopped by a guard: it reads inside the input (R165). -/
theorem decodeStep_answers {o : OpState} {s : State} (hop : OpInvariant Config.build s o) (hn : o.n ≤ 256)
    (r : Fault) : decodeStep Config.build o s ≠ .fault r := by
  unfold decodeStep
  split
  · simp
  · intro h
    have he := scanStep_effect Config.build o s
    rw [h] at he
    have b1 := hop.scanIndex
    have b2 := hop.escInside
    cases he with
    | outside k hk h1 h2 h3 =>
      refine h1 ⟨?_, hn⟩
      rw [hk]
      split
      · omega
      · cases hd : o.dstate with
        | seek =>
          have := h2 hd
          omega
        | body => exact h3 hd
        | esc => exact b2 hd
        | final => contradiction

/-- No guard of the model stops an internal step in a state of the invariant (R200). -/
theorem microStep_answers {o : OpState} {s : State} (hi : Invariant Config.build { s with op := some o })
    (r : Fault) : microStep Config.build o s ≠ .fault r := by
  have hop := hi.opInvariant o rfl
  have hn : o.n ≤ 256 := by
    rw [hop.latched]
    exact hi.inLenRange
  have hop0 : OpInvariant Config.build s o :=
    ⟨hop.1, hop.2, hop.3, hop.4, hop.5, hop.6, hop.7, hop.8, hop.9, hop.10⟩
  unfold microStep
  split
  · exact encodeStep_answers hop0 hn r
  · exact decodeStep_answers hop0 hn r
  · rcases sizeStep_cases Config.build o s with ⟨-, he⟩ | ⟨h, he⟩
    · rw [he]
      simp
    · rw [inCap_eq] at h
      omega
  · simp [badStep]
  · simp [badStep]

end Sys2Proof.Safety
end

