-- ==== Sys2Proof/Laws/LoopForm.lean ====
section
/-! SUPPORT. The laws of the loop form of DECODE (42_decode.md R166): what the search for START and the loop do
with each kind of byte, and with the wire forms of a whole payload. -/

namespace Sys2Proof.Machine

/-- START, END and ESCAPE are three bytes (R7). -/
theorem reserved_distinct {p : Params} (hp : p.Legal) :
    p.startByte ≠ p.endByte ∧ p.startByte ≠ p.escapeByte ∧ p.endByte ≠ p.escapeByte := by
  obtain ⟨h, -⟩ := hp
  simp only [Params.constants, List.nodup_cons, List.mem_cons, List.not_mem_nil, or_false, not_or] at h
  tauto

/-- No escape code is a reserved byte (R9). -/
theorem reservedOf_eq_none {p : Params} (hp : p.Legal) {b : Byte} (hb : isReserved p b = true) :
    reservedOf p b = none := by
  obtain ⟨h, -⟩ := hp
  simp only [Params.constants, List.nodup_cons, List.mem_cons, List.not_mem_nil, or_false, not_or] at h
  simp only [isReserved, Bool.or_eq_true, decide_eq_true_eq] at hb
  unfold reservedOf
  rcases hb with (rfl | rfl) | rfl
  · rw [if_neg (by tauto), if_neg (by tauto), if_neg (by tauto)]
  · rw [if_neg (by tauto), if_neg (by tauto), if_neg (by tauto)]
  · rw [if_neg (by tauto), if_neg (by tauto), if_neg (by tauto)]

/-- Bytes other than START before the search are skipped (R162). -/
theorem afterStart_append {p : Params} {x r : List Byte} (h : p.startByte ∉ x) :
    afterStart p (x ++ r) = afterStart p r := by
  induction x with
  | nil => rfl
  | cons b x ih =>
    simp only [List.mem_cons, not_or] at h
    rw [List.cons_append, afterStart, if_neg (fun e => h.1 e.symm), ih h.2]

/-- The search fails exactly when no byte is START. -/
theorem afterStart_eq_none {p : Params} {l : List Byte} : afterStart p l = none ↔ p.startByte ∉ l := by
  induction l with
  | nil => simp [afterStart]
  | cons b l ih =>
    unfold afterStart
    by_cases hb : b = p.startByte
    · simp [hb]
    · simp [hb, ih, Ne.symm hb]

/-- What the search leaves is a shorter rest of the input. -/
theorem afterStart_some {p : Params} {l r : List Byte} (h : afterStart p l = some r) :
    r.length < l.length ∧ ∀ x ∈ r, x ∈ l := by
  induction l with
  | nil => cases h
  | cons b l ih =>
    unfold afterStart at h
    split at h
    · cases h
      exact ⟨by simp, fun x hx => List.mem_cons_of_mem _ hx⟩
    · obtain ⟨h1, h2⟩ := ih h
      exact ⟨by simp only [List.length_cons]; omega, fun x hx => List.mem_cons_of_mem _ (h2 x hx)⟩

/-- A literal body byte is appended. -/
theorem scanLoop_literal {p : Params} {b : Byte} {l : List Byte} {cnt : Nat} {m : Memory}
    (h : isReserved p b = false) (hl : l ≠ []) (hc : cnt < p.outCap) :
    scanLoop p (b :: l) cnt m = scanLoop p l (cnt + 1) (memWrite m (outBase + cnt) b) := by
  obtain ⟨c, l, rfl⟩ := List.exists_cons_of_ne_nil hl
  simp only [isReserved, Bool.or_eq_false_iff, decide_eq_false_iff_not] at h
  simp [scanLoop, h, hc]

/-- An escape pair with a code appends the reserved byte. -/
theorem scanLoop_escape {p : Params} (hp : p.Legal) {c v : Byte} {l : List Byte} {cnt : Nat} {m : Memory}
    (h : reservedOf p c = some v) (hc : cnt < p.outCap) :
    scanLoop p (p.escapeByte :: c :: l) cnt m =
      scanLoop p l (cnt + 1) (memWrite m (outBase + cnt) v) := by
  obtain ⟨-, h2, h3⟩ := reserved_distinct hp
  simp [scanLoop, h2.symm, h3.symm, h, hc]

/-- An escape pair without a code ends the scan (R163). -/
theorem scanLoop_illegal {p : Params} (hp : p.Legal) {c : Byte} {l : List Byte} {cnt : Nat} {m : Memory}
    (h : reservedOf p c = none) :
    scanLoop p (p.escapeByte :: c :: l) cnt m = .failed .decodeError m := by
  obtain ⟨-, h2, h3⟩ := reserved_distinct hp
  simp [scanLoop, h2.symm, h3.symm, h]

/-- END stops the scan, and is not appended. -/
theorem scanLoop_end {p : Params} (hp : p.Legal) (l : List Byte) (cnt : Nat) (m : Memory) :
    scanLoop p (p.endByte :: l) cnt m = .stopped cnt m := by
  obtain ⟨h1, -, -⟩ := reserved_distinct hp
  cases l <;> simp [scanLoop, h1.symm]

/-- START inside the scanned range resynchronises (R157). -/
theorem scanLoop_start {p : Params} {l : List Byte} (hl : l ≠ []) (cnt : Nat) (m : Memory) :
    scanLoop p (p.startByte :: l) cnt m = scanLoop p l 0 m := by
  obtain ⟨c, l, rfl⟩ := List.exists_cons_of_ne_nil hl
  simp [scanLoop]

/-- The scan of the wire forms of a payload appends the payload. -/
theorem scanLoop_wire {p : Params} (hp : p.Legal) (q : List Byte) {r : List Byte} {cnt : Nat} {m : Memory}
    (hr : r ≠ []) (hc : cnt + q.length ≤ p.outCap) :
    scanLoop p (q.flatMap (wireForm p) ++ r) cnt m =
      scanLoop p r (cnt + q.length) (memWriteList m (outBase + cnt) q) := by
  induction q generalizing cnt m with
  | nil => rfl
  | cons b q ih =>
    simp only [List.length_cons] at hc
    simp only [List.flatMap_cons, List.append_assoc, memWriteList, List.length_cons]
    rw [show cnt + (q.length + 1) = cnt + 1 + q.length by omega, Nat.add_assoc outBase cnt 1]
    by_cases hb : isReserved p b = true
    · obtain ⟨c, hcode, hw⟩ := wireForm_reserved hb
      rw [hw, List.cons_append, List.cons_append, List.nil_append,
        scanLoop_escape hp (reservedOf_codeOf hp hcode) (by omega), ih (by omega)]
    · have hb' : isReserved p b = false := by simpa using hb
      rw [wireForm_literal hb', List.cons_append, List.nil_append,
        scanLoop_literal hb' (by simp [hr]) (by omega), ih (by omega)]

/-- The loop form of DECODE on an input that begins with START. -/
theorem decodeLoop_start (p : Params) (rest : List Byte) (last : Byte) (m : Memory) :
    decodeLoop p (p.startByte :: rest) last m =
      match scanLoop p rest 0 m with
      | .failed c m' => ⟨c, 0, m'⟩
      | .stopped cnt m' =>
        if last = p.endByte then ⟨.ok, cnt, m'⟩ else ⟨.noEndMarker, cnt, m'⟩ := by
  simp only [decodeLoop, afterStart, if_true, reduceCtorEq, if_false] <;>
    cases scanLoop p rest 0 m <;> rfl

end Sys2Proof.Machine
end

