-- ==== Sys2Proof/Laws/PerInstr.lean ====
section
/-! SUPPORT. A statement about each command as syntax, made per constructor: which command words are illegal
(30_encoding.md R87). -/

namespace Sys2Proof.Laws.IllegalWord

/-- The word of a well-formed command is illegal in the sense of R87 (the word 0x00000000, or bits [31:2] not
zero) exactly when the command is BAD. -/
def Statement (i : Instr) : Prop :=
  wellFormed i = true →
    (oprOf i = .bad ↔ encodeCmd i = 0x00000000 ∨ (encodeCmd i).extractLsb' 2 30 ≠ 0)

theorem encode : Statement .encode := by
  unfold Statement
  decide

theorem decode : Statement .decode := by
  unfold Statement
  decide

theorem size : Statement .size := by
  unfold Statement
  decide

theorem badCommandOp0 : Statement .badCommandOp0 := by
  unfold Statement
  decide

/-- The reserved field of a word put together from its fields (R81). -/
theorem rsvd_of_cmdWord (rsvd : BitVec 30) (op : BitVec 2) :
    (cmdWord rsvd op).extractLsb' 2 30 = rsvd := by
  apply BitVec.eq_of_getLsbD_eq
  intro k hk
  simp only [cmdWord, BitVec.getLsbD_extractLsb', BitVec.getLsbD_append]
  simp [hk, show ¬ 2 + k < 2 by omega]

theorem badCommandRsvd (rsvd : BitVec 30) (op : BitVec 2) : Statement (.badCommandRsvd rsvd op) := by
  intro h
  have hr : rsvd ≠ 0 := by simpa [wellFormed] using h
  exact ⟨fun _ => .inr (by simpa only [encodeCmd, rsvd_of_cmdWord] using hr), fun _ => rfl⟩

end Sys2Proof.Laws.IllegalWord
end

