-- ==== Sys2Proof/Tests/Slice0.lean ====
section
/-! SUPPORT. Tests: each expected value is written in spec/ (95_test_vectors.md, the vector's name in the comment,
or the rule named). Then one witness per statement of Obligations.lean: a state and operands that meet its
hypotheses. -/

namespace Sys2Proof.Tests

open Sys2Proof.Machine Sys2Proof.Safety

/-! ### Small states -/

/-- An idle block whose IN_BUF and IN_LEN hold an input (R233, steps 3 and 4). -/
def loaded (input : List Byte) : State :=
  { State.reset with inLen := BitVec.ofNat 32 input.length, mem := memWriteList [] inBase input }

/-- The block right after it accepted `i` for that input, with `w` host turns before the completion. -/
def accepted (i : Instr) (input : List Byte) (w : Nat) : State :=
  { acceptCommand i (loaded input) with op := some (startOp i input.length 0 w) }

/-- What a command leaves: RESULT, OUT_LEN, SIZE_VAL and OUT_BUF[0..OUT_LEN). -/
def ran (i : Instr) (input : List Byte) : Option (ResultCode × Word × Word × List Byte) :=
  match exec i (accepted i input 0) with
  | .next t => some (t.status.result, t.outLen, t.sizeVal, output t)
  | .fault _ => none
  | .refused _ => none

/-! ### WellFormed and the command word (30_encoding.md R80, R81) -/

/-- R82: with bits [31:2] zero the word is no word of the row BAD_COMMAND_RSVD. -/
theorem test_wellFormed_refuses_zero_rsvd : wellFormed (.badCommandRsvd 0 1) = false := by decide

theorem test_wellFormed_takes_nonzero_rsvd : wellFormed (.badCommandRsvd 1 1) = true := by decide

theorem test_word_encode :
    decodeTableWord 32 0b00000000000000000000000000000001 = some .encode := by decide

theorem test_word_decode :
    decodeTableWord 32 0b00000000000000000000000000000010 = some .decode := by decide

theorem test_word_size :
    decodeTableWord 32 0b00000000000000000000000000000011 = some .size := by decide

theorem test_word_badCommandOp0 :
    decodeTableWord 32 0b00000000000000000000000000000000 = some .badCommandOp0 := by decide

/-- DV-B2: a valid OP with a reserved bit set. -/
theorem test_word_badCommandRsvd :
    decodeTableWord 32 0b00000000000000000000000000000101 = some (.badCommandRsvd 1 0b01) := by decide

/-! ### One step per command -/

/-- SX1 -/
theorem test_encode_concrete_example : ran .encode [0xAB, 0x1E, 0x10] =
    some (.ok, 7, 7, [0xAB, 0x1E, 0x01, 0x1E, 0x02, 0x10, 0xCD]) := by decide

/-- DV-E6 -/
theorem test_encode_end_and_start : ran .encode [0xCD, 0xAB] =
    some (.ok, 6, 6, [0xAB, 0x1E, 0x03, 0x1E, 0x01, 0xCD]) := by decide

/-- SX2 -/
theorem test_decode_concrete_example : ran .decode [0xAB, 0x1E, 0x01, 0x1E, 0x02, 0x10, 0xCD] =
    some (.ok, 3, 0, [0xAB, 0x1E, 0x10]) := by decide

/-- DV-D17: END right after an ESCAPE is no sentinel. -/
theorem test_decode_escape_then_end : ran .decode [0xAB, 0x1E, 0xCD] =
    some (.decodeError, 0, 0, []) := by decide

/-- SX8 -/
theorem test_size_concrete_example : ran .size [0xAB, 0x1E, 0x10] = some (.ok, 0, 7, []) := by decide

/-- R182: the empty input. -/
theorem test_size_empty : ran .size [] = some (.ok, 0, 2, []) := by decide

/-- DV-B1 -/
theorem test_badCommandOp0 : ran .badCommandOp0 [0x10] = some (.badCommand, 0, 0, []) := by decide

/-- DV-B2 -/
theorem test_badCommandRsvd : ran (.badCommandRsvd 1 0b01) [0x10] = some (.badCommand, 0, 0, []) := by decide

/-! ### One step of the host, and the step after a placed command -/

/-- DV-M8: idle, IN_LEN = 5. -/
theorem test_inLen_above_capacity :
    busWrite Config.build 0x00008 (.b4 257) { State.reset with inLen := 5 } =
      (.write .okay, { State.reset with
        inLen := 5, status := { busy := false, done := false, werr := true, result := .none } }) := by decide

/-- DV-M11: STATUS = 0x16 before. -/
theorem test_status_write_clears_only_werr :
    statusWord (busWrite Config.build 0x00004 (.b4 0xFFFFFFFF) { State.reset with
      status := { busy := false, done := true, werr := true, result := .ok } }).2.status = 0x12 := by decide

/-- DV-M15 -/
theorem test_misaligned_read :
    (busRead Config.build 0x00002 .w4 State.reset).1 = .read .err (.b4 0) := by decide

/-- DV-M18 -/
theorem test_read_past_inBuf :
    (busRead Config.build 0x10100 .w1 State.reset).1 = .read .err (.b1 0) := by decide

/-- The STATUS word that a step leaves. -/
def stepStatus (s : State) : Option Word :=
  match step s with
  | .next t => some (statusWord t.status)
  | .fault _ => none
  | .refused _ => none

/-- R116, its example: the word 0x00000000 gives STATUS = 0x00000072. -/
theorem test_step_runs_placed_word : stepStatus (State.reset.withFetchWord 32 0) = some 0x72 := by decide

/-! ### Facts about the small states -/

theorem inByte_loaded (input : List Byte) (d k : Nat) (hk : k < input.length) :
    inByte d k (loaded input) = input[k] := by
  unfold inByte loaded
  rw [memLookup_memWriteList, if_pos (by omega), Nat.add_sub_cancel_left, List.getElem?_eq_getElem hk]

/-- The operand of an accepted command is the input that was loaded (R83). -/
theorem opInput_accepted (i : Instr) (input : List Byte) (w : Nat) :
    opInput (startOp i input.length 0 w) (accepted i input w) = input := by
  apply List.ext_getElem?
  intro k
  by_cases hk : k < input.length
  · rw [opInput_getElem? _ _ hk, List.getElem?_eq_getElem hk]
    exact congrArg some (inByte_loaded input 0 k hk)
  · rw [List.getElem?_eq_none (by rw [opInput_length]; exact Nat.le_of_not_lt hk),
      List.getElem?_eq_none (Nat.le_of_not_lt hk)]

theorem opInputAgain_accepted (i : Instr) (input : List Byte) (w : Nat) :
    opInputAgain (startOp i input.length 0 w) (accepted i input w) = input := by
  apply List.ext_getElem?
  intro k
  by_cases hk : k < input.length
  · rw [opInputAgain_getElem? _ _ hk, List.getElem?_eq_getElem hk]
    exact congrArg some (inByte_loaded input 1 k hk)
  · rw [List.getElem?_eq_none (by rw [opInputAgain_length]; exact Nat.le_of_not_lt hk),
      List.getElem?_eq_none (Nat.le_of_not_lt hk)]

/-- Every read of an input that was loaded gives the input (R35). -/
theorem reads_accepted (i : Instr) (input : List Byte) (w : Nat) :
    Reads (startOp i input.length 0 w) (accepted i input w) input :=
  ⟨opInput_accepted i input w, opInputAgain_accepted i input w⟩

/-- As `reads_accepted`, for an input written in another way. -/
theorem reads_of_eq {i : Instr} {input x : List Byte} (w : Nat) (h : input = x) :
    Reads (startOp i input.length 0 w) (accepted i input w) x := h ▸ reads_accepted i input w

/-- The two reads of a byte that was not written since reset are two draws (R35, I6). -/
theorem test_unwritten_byte_reads_are_two_draws :
    inByte (startOp .decode 1 0 0).draw 0 State.reset = Config.freeInByte 0 0 ∧
    finalByte (startOp .decode 1 0 0) State.reset = Config.freeInByte 1 0 := ⟨rfl, rfl⟩

/-- R233: the eight steps for SIZE of one byte, with the wait for BUSY = 0 in step 2 and the write of 1 to
STATUS bit 2 in step 7. -/
theorem test_useOrder_has_the_eight_steps : useOrder ⟨true, true, false, false, none⟩ .size [0x10] =
    [.read 0x00014 .w4, .read 0x00018 .w4, .read 0x0001C .w4, .waitIdle, .write 0x10000 (.b1 0x10),
      .write 0x00008 (.b4 1), .write 0x00000 (.b4 3), .wait, .read 0x00004 .w4, .write 0x00004 (.b4 4),
      .read 0x00004 .w4, .read 0x00010 .w4] := by decide

/-- After reset BUSY and DONE are 0 (R40): the wait of R233 step 2 ends at once, and WAIT does not end (R94). -/
theorem test_waits_after_reset :
    (hostTurn Config.build { State.reset with hostQueue := [.waitIdle] }).hostQueue = [] ∧
    (hostTurn Config.build { State.reset with hostQueue := [.wait] }).hostQueue = [.wait] := by decide

theorem started_accepted (i : Instr) (input : List Byte) (w : Nat) (h : input.length ≤ 256) :
    Started i (accepted i input w) (startOp i input.length 0 w) := by
  refine ⟨rfl, ?_, h⟩
  show startOp i input.length 0 w = startOp i (BitVec.ofNat 32 input.length).toNat 0 w
  rw [toNat_ofNat_of_le (by omega)]

/-- A command that ran has a next state, with the result that `ran` gives. -/
theorem exec_of_ran {i : Instr} {input : List Byte} {c : ResultCode} {l v : Word} {out : List Byte}
    (h : ran i input = some (c, l, v, out)) :
    ∃ t, exec i (accepted i input 0) = .next t ∧ t.status.result = c ∧ output t = out := by
  unfold ran at h
  cases he : exec i (accepted i input 0) with
  | next t =>
    rw [he] at h
    cases h
    exact ⟨t, rfl, rfl, rfl⟩
  | fault r =>
    rw [he] at h
    cases h
  | refused r =>
    rw [he] at h
    cases h

/-- The block that has just accepted a command after a host loaded IN_BUF meets the invariant. -/
theorem invariant_accepted_reset (v : Word) : Invariant Config.build (acceptCommand (decodeCmd v) State.reset) :=
  invariant_accept (invariant_hostSide (invariant_resetBlock State.reset) [] [] [] 0 0 false) v

theorem invariant_reset : Invariant Config.build State.reset :=
  invariant_hostSide (invariant_resetBlock State.reset) [] [] [] 0 0 false

/-! ### One witness per statement with hypotheses -/

theorem witness_DecodingAnEncodedCommandGivesItBack :
    wellFormed .encode = true ∧ wellFormed (.badCommandRsvd 0x3FFFFFFF 3) = true := by decide

theorem witness_AcceptanceOfACommand : ∃ s : State, s.status.busy = false ∧ nextDuration s = 0 :=
  ⟨{ State.reset with durations := [0] }, rfl, rfl⟩

theorem witness_CommandWrittenWhileBusyIsIgnored : (accepted .encode [0x10] 1).status.busy = true := rfl

/-- The three clauses: no operation, one that is due, and one with a host turn left. -/
theorem witness_StepRunsTheAcceptedCommand :
    State.reset.op = none ∧
    (∃ o, (accepted .encode [0x10] 0).op = some o ∧ o.wait = 0) ∧
    (∃ o, (accepted .encode [0x10] 1).op = some o ∧ o.wait = 0 + 1) :=
  ⟨rfl, ⟨_, rfl, rfl⟩, ⟨_, rfl, rfl⟩⟩

theorem witness_StepRunsTheFetchedWord : decodeTableWord 32 1 = some .encode := by decide

theorem witness_ExecOnAnIdleBlockAcceptsFirst : (loaded [0x10]).op = none := rfl

theorem witness_WaitsPollStatus :
    ({ State.reset with hostQueue := [.wait] } : State).hostQueue = .wait :: [] ∧
    ({ State.reset with hostQueue := [.waitIdle] } : State).hostQueue = .waitIdle :: [] := ⟨rfl, rfl⟩

/-- Both constructors that stand for BAD. -/
theorem witness_BadCommandCompletes :
    (oprOf .badCommandOp0 = .bad ∧ (accepted .badCommandOp0 [] 0).op = some (startOp .badCommandOp0 0 0 0)) ∧
    (oprOf (.badCommandRsvd 1 1) = .bad ∧
      (accepted (.badCommandRsvd 1 1) [] 0).op = some (startOp (.badCommandRsvd 1 1) 0 0 0)) ∧
    (oprOf (decodeCmd 0x00000005) = .bad ∧ (accepted .encode [0x10] 1).status.busy = true) :=
  ⟨⟨rfl, rfl⟩, ⟨rfl, rfl⟩, ⟨by decide, rfl⟩⟩

/-- The empty input, and the longest one. -/
theorem witness_SizeCompletes :
    Started .size (accepted .size [] 0) (startOp .size 0 0 0) ∧
    Started .size (accepted .size (List.replicate 256 0xCD) 0)
      (startOp .size (List.replicate 256 (0xCD : Byte)).length 0 0) :=
  ⟨started_accepted .size [] 0 (by simp), started_accepted .size (List.replicate 256 0xCD) 0 (by rw [List.length_replicate])⟩

/-- The last clause, at the boundary of its range. -/
theorem witness_EncSizeFormsAndRange : (List.replicate 256 (0xCD : Byte)).length ≤ Config.build.inCap := by
  rw [List.length_replicate, inCap_eq]

theorem witness_SizeAgreesWithEncode :
    ∃ (s s' : State) (o o' : OpState), Started .size s o ∧ Started .encode s' o' ∧ 1 ≤ o.n ∧
      opInput o s = opInput o' s' :=
  ⟨_, _, _, _, started_accepted .size [0xAB] 0 (by simp), started_accepted .encode [0xAB] 0 (by simp),
    by simp, by rw [opInput_accepted, opInput_accepted]⟩

/-- ENCODE, DECODE and SIZE with the empty input. -/
theorem witness_EmptyInputIsReported :
    (∃ s o, Started .encode s o ∧ o.n = 0) ∧ (∃ s o, Started .decode s o ∧ o.n = 0) ∧
    (∃ s o, Started .size s o ∧ o.n = 0) :=
  ⟨⟨_, _, started_accepted .encode [] 0 (by simp), rfl⟩, ⟨_, _, started_accepted .decode [] 0 (by simp), rfl⟩,
    ⟨_, _, started_accepted .size [] 0 (by simp), rfl⟩⟩

/-- DV-E13 and DV-E14: 127 and 128 bytes 0xCD, on the two sides of the capacity. -/
theorem encSize_replicate_end (n : Nat) : encSize Config.build (List.replicate n 0xCD) = 2 + 2 * n := by
  unfold encSize
  rw [List.map_replicate, List.sum_replicate, show wireWeight Config.build 0xCD = 2 from rfl]
  simp [Nat.mul_comm]

/-- Each of the three cases; the last two at the boundary. -/
theorem witness_EncodeCompletes :
    (∃ s o, Started .encode s o ∧ o.n = 0) ∧
    (∃ s o, Started .encode s o ∧ 1 ≤ o.n ∧ Config.build.outCap < encSize Config.build (opInput o s)) ∧
    (∃ s o, Started .encode s o ∧ 1 ≤ o.n ∧ encSize Config.build (opInput o s) ≤ Config.build.outCap) ∧
    (∃ s o x, Started .encode s o ∧ Reads o s x) := by
  refine ⟨⟨_, _, started_accepted .encode [] 0 (by simp), rfl⟩,
    ⟨_, _, started_accepted .encode (List.replicate 128 0xCD) 0 (by simp), by simp, ?_⟩,
    ⟨_, _, started_accepted .encode (List.replicate 127 0xCD) 0 (by simp), by simp, ?_⟩,
    ⟨_, _, _, started_accepted .encode [0x10] 0 (by simp), reads_accepted ..⟩⟩
  · rw [opInput_accepted, encSize_replicate_end, outCap_eq]
    omega
  · rw [opInput_accepted, encSize_replicate_end, outCap_eq]

/-- An ENCODE with result OK: DV-E2. -/
theorem encode_ok_exists : ∃ s t o, Started .encode s o ∧ exec .encode s = .next t ∧ t.status.result = .ok ∧
    output t = [0xAB, 0x1E, 0x01, 0xCD] ∧ Reads o s [0xAB] := by
  obtain ⟨t, h1, h2, h3⟩ := exec_of_ran
    (show ran .encode [0xAB] = some (.ok, 4, 4, [0xAB, 0x1E, 0x01, 0xCD]) by decide)
  exact ⟨_, t, _, started_accepted .encode [0xAB] 0 (by simp), h1, h2, h3, reads_accepted ..⟩

theorem witness_EncodeWritesExactlyTheFrame :
    ∃ s t o, Started .encode s o ∧ exec .encode s = .next t ∧ t.status.result = .ok := by
  obtain ⟨s, t, o, h1, h2, h3, -⟩ := encode_ok_exists
  exact ⟨s, t, o, h1, h2, h3⟩

theorem witness_EncodeOutputIsAFrameOfTheGrammar :
    ∃ s t o, Started .encode s o ∧ exec .encode s = .next t ∧ t.status.result = .ok :=
  witness_EncodeWritesExactlyTheFrame

/-- Each of the three clauses, on the frame of DV-E2. -/
theorem witness_SentinelsStandOnlyAtTheEndsOfAFrame :
    Config.build.Legal ∧ (frame Config.build [0xAB])[0]? = some Config.build.startByte ∧
    (frame Config.build [0xAB])[3]? = some Config.build.endByte ∧
    (frame Config.build [0xAB])[1]? = some Config.build.escapeByte := by decide

theorem witness_EncodeOverflowsExactlyBeyondCapacity : ∃ s o, Started .encode s o ∧ 1 ≤ o.n :=
  ⟨_, _, started_accepted .encode [0x10] 0 (by simp), by simp⟩

theorem witness_StateMachineIsTheLoopForm :
    Config.build.Legal ∧ Config.build.tailMode = .skip ∧ Config.build.finalMode = .lastByte ∧
    (startOp .decode 256 0 0) = startOp .decode (startOp .decode 256 0 0).n (startOp .decode 256 0 0).draw
      (startOp .decode 256 0 0).wait ∧ (startOp .decode 256 0 0).n ≤ Config.build.inCap := by decide

theorem witness_DecodeCompletes : ∃ s o, Started .decode s o :=
  ⟨_, _, started_accepted .decode [0xAB, 0x10, 0xCD] 0 (by simp)⟩

/-- A step that scans a byte; the step to FINAL, at i = N - 1; the state FINAL; and a DECODE just accepted. -/
theorem witness_DecodeEndsWithinNPlusThreeSteps :
    (∃ o' s', scanStep Config.build (startOp .decode 1 0 0) (loaded [0xAB]) = .running o' s') ∧
    (∃ o' s', scanStep Config.build { startOp .decode 1 0 0 with dstate := .body, i := 1 } (loaded [0xAB]) =
      .running o' s' ∧ o'.dstate = .final) ∧
    ({ startOp .decode 1 0 0 with dstate := .final } : OpState).dstate = .final ∧
    (startOp .decode 1 0 0 = startOp .decode (startOp .decode 1 0 0).n 0 0 ∧
      (startOp .decode 1 0 0).n ≤ Config.build.inCap) :=
  ⟨⟨_, _, rfl⟩, ⟨_, _, rfl, rfl⟩, rfl, rfl, by decide⟩

/-- DV-D11 -/
theorem witness_DecodeWithoutStartReportsIt :
    ∃ s o, Started .decode s o ∧ 1 ≤ o.n ∧ Config.build.startByte ∉ opInput o s :=
  ⟨_, _, started_accepted .decode [0x10, 0x20] 0 (by simp), by simp, by rw [opInput_accepted]; decide⟩

/-- The clause about agreeing reads too. -/
theorem witness_DecodeResultConditions : ∃ s o x, Started .decode s o ∧ Reads o s x ∧ 1 ≤ o.n :=
  ⟨_, _, _, started_accepted .decode [0xAB, 0x10, 0xCD] 0 (by simp), reads_accepted .., by simp⟩

/-- The run of DECODE under some parameters: its result, from a block that has accepted it. -/
def ranDecode (p : Params) (input : List Byte) : Option ResultCode :=
  match runOp (decodeStep p) (stepBound (startOp .decode input.length 0 0)) (startOp .decode input.length 0 0)
      (accepted .decode input 0) with
  | .next t => some t.status.result
  | .fault _ => none
  | .refused _ => none

/-- The second clause too: with OUT_CAP = 2 a third append overflows (R153). -/
theorem witness_DecodeOverflowBounds :
    ∃ (p : Params) (s t : State) (o : OpState), p.Legal ∧ p.tailMode = .skip ∧
      o = startOp .decode o.n o.draw o.wait ∧ o.n ≤ p.inCap ∧
      runOp (decodeStep p) (stepBound o) o s = .next t ∧ t.status.result = .overflow := by
  have h : ranDecode { Config.build with outCap := 2 } [0xAB, 0x10, 0x11, 0x12, 0xCD] = some .overflow := by decide
  unfold ranDecode at h
  cases he : runOp (decodeStep { Config.build with outCap := 2 })
      (stepBound (startOp .decode [0xAB, 0x10, 0x11, 0x12, (0xCD : Byte)].length 0 0))
      (startOp .decode [0xAB, 0x10, 0x11, 0x12, (0xCD : Byte)].length 0 0)
      (accepted .decode [0xAB, 0x10, 0x11, 0x12, 0xCD] 0) with
  | next t =>
    rw [he] at h
    exact ⟨_, _, t, _, by decide, rfl, rfl, by decide, he, Option.some.inj h⟩
  | fault r =>
    rw [he] at h
    cases h
  | refused r =>
    rw [he] at h
    cases h

/-- A DECODE with result OK: DV-D22. -/
theorem decode_ok_exists : ∃ s t o, Started .decode s o ∧ exec .decode s = .next t ∧
    opInput o s = [0xAB, 0x1E, 0x03, 0xCD] ∧ t.status.result = .ok := by
  obtain ⟨t, h1, h2, -⟩ := exec_of_ran
    (show ran .decode [0xAB, 0x1E, 0x03, 0xCD] = some (.ok, 1, 0, [0xCD]) by decide)
  exact ⟨_, t, _, started_accepted .decode [0xAB, 0x1E, 0x03, 0xCD] 0 (by simp), h1, opInput_accepted .., h2⟩

theorem witness_DecodeFrame : ∃ s t o, Started .decode s o ∧ exec .decode s = .next t := by
  obtain ⟨s, t, o, h1, h2, -⟩ := decode_ok_exists
  exact ⟨s, t, o, h1, h2⟩

/-- DV-D32, with q = [0x10]. -/
theorem witness_IllegalEscapePairIsADecodeError :
    ∃ s o q rest c, Started .decode s o ∧
      opInput o s = Config.build.startByte :: List.flatMap (wireForm Config.build) q ++
        Config.build.escapeByte :: c :: rest ∧ reservedOf Config.build c = none :=
  ⟨_, _, [0x10], [0xCD], 0xFF, started_accepted .decode [0xAB, 0x10, 0x1E, 0xFF, 0xCD] 0 (by simp),
    by rw [opInput_accepted]; decide, by decide⟩

/-- DV-D13 and DV-D14, one for each clause. -/
theorem witness_EscapeAtTheEndOfTheInput :
    (∃ s o q, Started .decode s o ∧ Reads o s
      (Config.build.startByte :: List.flatMap (wireForm Config.build) q ++ [Config.build.escapeByte])) ∧
    (∃ s o q c r, Started .decode s o ∧ Reads o s
      (Config.build.startByte :: List.flatMap (wireForm Config.build) q ++ [Config.build.escapeByte, c]) ∧
      reservedOf Config.build c = some r) :=
  ⟨⟨_, _, [0x10], started_accepted .decode [0xAB, 0x10, 0x1E] 0 (by simp), reads_of_eq 0 (by decide)⟩,
    ⟨_, _, [], 0x01, 0xAB, started_accepted .decode [0xAB, 0x1E, 0x01] 0 (by simp), reads_of_eq 0 (by decide),
      by decide⟩⟩

/-- DV-D24 -/
theorem witness_EarlyEndStopsTheScan :
    ∃ s o q rest, Started .decode s o ∧ rest ≠ [] ∧ opInput o s =
      Config.build.startByte :: List.flatMap (wireForm Config.build) q ++ Config.build.endByte :: rest ∧
      opInputAgain o s = opInput o s :=
  ⟨_, _, [0x11], [0x22], started_accepted .decode [0xAB, 0x11, 0xCD, 0x22] 0 (by simp), by simp,
    by rw [opInput_accepted]; decide, by rw [opInput_accepted, opInputAgain_accepted]⟩

/-- DV-D27 -/
theorem witness_BytesBeforeStartAreSkipped :
    ∃ s s' o o' x, Started .decode s o ∧ Started .decode s' o' ∧ Config.build.startByte ∉ x ∧
      (opInput o' s').head? = some Config.build.startByte ∧ opInput o s = x ++ opInput o' s' ∧
      finalByte o s = finalByte o' s' :=
  ⟨_, _, _, _, [0x1E, 0xFF, 0xCD], started_accepted .decode [0x1E, 0xFF, 0xCD, 0xAB, 0x10, 0xCD] 0 (by simp),
    started_accepted .decode [0xAB, 0x10, 0xCD] 0 (by simp), by decide, by rw [opInput_accepted]; decide,
    by rw [opInput_accepted, opInput_accepted]; decide,
    (inByte_loaded [0x1E, 0xFF, 0xCD, 0xAB, 0x10, 0xCD] 1 5 (by decide)).trans
      (inByte_loaded [0xAB, 0x10, 0xCD] 1 2 (by decide)).symm⟩

/-- DV-D1 and DV-D5, one for each length. -/
theorem witness_MinimalInputs :
    (∃ s o b, Started .decode s o ∧ Reads o s [b]) ∧ (∃ s o b c, Started .decode s o ∧ Reads o s [b, c]) :=
  ⟨⟨_, _, 0xAB, started_accepted .decode [0xAB] 0 (by simp), reads_accepted ..⟩,
    ⟨_, _, 0xAB, 0xCD, started_accepted .decode [0xAB, 0xCD] 0 (by simp), reads_accepted ..⟩⟩

theorem witness_EncodeThenDecodeRoundTrip :
    ∃ s t s' o o' x, Started .encode s o ∧ exec .encode s = .next t ∧ t.status.result = .ok ∧
      Started .decode s' o' ∧ Reads o' s' (output t) ∧ Reads o s x := by
  obtain ⟨s, t, o, h1, h2, h3, h4, h5⟩ := encode_ok_exists
  exact ⟨s, t, _, o, _, _, h1, h2, h3, started_accepted .decode [0xAB, 0x1E, 0x01, 0xCD] 0 (by simp),
    reads_of_eq 0 h4.symm, h5⟩

/-- DV-R2, DV-R3 and DV-R4, one for each clause. -/
theorem witness_ResynchronisationOnTheLatestStart :
    (∃ s o x payload, Started .decode s o ∧ 1 ≤ payload.length ∧
      Reads o s (x ++ frame Config.build payload) ∧ x = [0xAB, 0x77]) ∧
    (∃ s o x payload, Started .decode s o ∧ 1 ≤ payload.length ∧
      Reads o s (x ++ frame Config.build payload) ∧
      x = [Config.build.startByte, 0x10, Config.build.endByte]) ∧
    (∃ s o x payload, Started .decode s o ∧ 1 ≤ payload.length ∧
      Reads o s (x ++ frame Config.build payload) ∧
      x = [Config.build.startByte, Config.build.escapeByte, 0xFF]) :=
  ⟨⟨_, _, _, [0x10], started_accepted .decode [0xAB, 0x77, 0xAB, 0x10, 0xCD] 0 (by simp), by simp,
      reads_of_eq 0 (by decide), rfl⟩,
    ⟨_, _, _, [0x20], started_accepted .decode [0xAB, 0x10, 0xCD, 0xAB, 0x20, 0xCD] 0 (by simp), by simp,
      reads_of_eq 0 (by decide), rfl⟩,
    ⟨_, _, _, [0x20], started_accepted .decode [0xAB, 0x1E, 0xFF, 0xAB, 0x20, 0xCD] 0 (by simp), by simp,
      reads_of_eq 0 (by decide), rfl⟩⟩

/-- DV-R2 also meets the condition of the first clause: after its one START come no END and no ESCAPE. -/
theorem witness_ResynchronisationCondition :
    ∀ pre post : List Byte, [0xAB, 0x77] = pre ++ Config.build.startByte :: post →
      Config.build.startByte ∉ pre → Config.build.endByte ∉ post ∧ Config.build.escapeByte ∉ post := by
  intro pre post h hpre
  cases pre with
  | nil =>
    cases h
    decide
  | cons b pre =>
    rw [List.cons_append] at h
    have hb : (0xAB : Byte) = b := (List.cons.inj h).1
    exact absurd (List.mem_cons.2 (.inl hb)) hpre

/-- DV-T1 and DV-T2: a payload that ends in a literal byte and one that ends in a reserved byte. -/
theorem witness_TruncatedFrame :
    (∃ s o payload b, Started .decode s o ∧ List.getLast? payload = some b ∧
      Reads o s (frame Config.build payload).dropLast ∧ isReserved Config.build b = false) ∧
    (∃ s o payload b, Started .decode s o ∧ List.getLast? payload = some b ∧
      Reads o s (frame Config.build payload).dropLast ∧ isReserved Config.build b = true) :=
  ⟨⟨_, _, [0x10, 0x20], 0x20, started_accepted .decode [0xAB, 0x10, 0x20] 0 (by simp), rfl,
      reads_of_eq 0 (by decide), by decide⟩,
    ⟨_, _, [0x10, 0xAB], 0xAB, started_accepted .decode [0xAB, 0x10, 0x1E, 0x01] 0 (by simp), rfl,
      reads_of_eq 0 (by decide), by decide⟩⟩

/-- The clause about equal states too: a DECODE with result OK whose reads agree. -/
theorem witness_TailModeChangesNoResultCode :
    ∃ s t o, Started .decode s o ∧ exec .decode s = .next t ∧ t.status.result ≠ .noEndMarker ∧
      opInputAgain o s = opInput o s := by
  obtain ⟨t, h1, h2, -⟩ := exec_of_ran test_decode_concrete_example
  exact ⟨_, t, _, started_accepted .decode [0xAB, 0x1E, 0x01, 0x1E, 0x02, 0x10, 0xCD] 0 (by simp), h1, by simp [h2],
    by rw [opInput_accepted, opInputAgain_accepted]⟩

/-- SIZE, a BAD command and DECODE: one for each of the conditional clauses. -/
theorem witness_CommandsLeaveTheRestUnchanged :
    (∃ (s t : State) (o : OpState), s.op = some o ∧ exec .size s = .next t ∧ oprOf .size = .size) ∧
    (∃ (s t : State) (o : OpState), s.op = some o ∧ exec .badCommandOp0 s = .next t ∧ oprOf .badCommandOp0 = .bad) ∧
    (∃ (s t : State) (o : OpState), s.op = some o ∧ exec .decode s = .next t ∧ oprOf .decode = .decode) := by
  obtain ⟨t1, h1, -⟩ := exec_of_ran test_size_empty
  obtain ⟨t2, h2, -⟩ := exec_of_ran test_badCommandOp0
  obtain ⟨t3, h3, -⟩ := exec_of_ran test_decode_concrete_example
  exact ⟨⟨_, t1, _, rfl, h1, rfl⟩, ⟨_, t2, _, rfl, h2, rfl⟩, ⟨_, t3, _, rfl, h3, rfl⟩⟩

/-- Two states with the same input and different histories. -/
theorem witness_ResultsDependOnTheInputOnly :
    ∃ s s' t t' o o', Started .encode s o ∧ Started .encode s' o' ∧ opInput o s = opInput o' s' ∧
      opInputAgain o s = opInputAgain o' s' ∧ exec .encode s = .next t ∧ exec .encode s' = .next t' ∧ s ≠ s' ∧ 1 ≤ o.n := by
  obtain ⟨s, t, o, h1, h2, -⟩ := encode_ok_exists
  refine ⟨accepted .encode [0x10] 0, accepted .encode [0x10] 1, ?_⟩
  obtain ⟨t1, k1, -⟩ := exec_of_ran (show ran .encode [0x10] = some (.ok, 3, 3, [0xAB, 0x10, 0xCD]) by decide)
  refine ⟨t1, t1, _, _, started_accepted .encode [0x10] 0 (by simp), started_accepted .encode [0x10] 1 (by simp),
    by rw [opInput_accepted, opInput_accepted], by rw [opInputAgain_accepted, opInputAgain_accepted], k1, ?_,
    by decide, by simp⟩
  have h0 := exec_microStep (s := accepted .encode [0x10] 0) (o := startOp .encode 1 0 0) rfl
  have h3 := exec_microStep (s := accepted .encode [0x10] 1) (o := startOp .encode 1 0 1) rfl
  have hw := runOp_wait Config.build 1 (stepBound (startOp .encode 1 0 1)) (startOp .encode 1 0 0)
    (accepted .encode [0x10] 1)
  have ho := runOp_op (p := Config.build) (stepBound (startOp .encode 1 0 1)) (startOp .encode 1 0 0)
    (accepted .encode [0x10] 0) (some (startOp .encode 1 0 1))
  exact h3.trans (hw.trans (ho.trans (h0.symm.trans k1)))

/-- The first step of an ENCODE: START is emitted. -/
theorem witness_InternalProgressIsInvisible :
    ∃ (s s' : State) (o o' : OpState), s.op = some o ∧ microStep Config.build o s = .running o' s' := by
  rcases encodeBegin_cases Config.build (startOp .encode 1 0 0) (accepted .encode [0x10] 0) rfl with
    ⟨h, -⟩ | ⟨-, h, -⟩ | ⟨-, -, h, -⟩ | ⟨-, -, -, h⟩
  · cases h
  · exact absurd h (by decide)
  · rw [show opInput (startOp .encode 1 0 0) (accepted .encode [0x10] 0) = [0x10] from
      opInput_accepted .encode [0x10] 0] at h
    exact absurd h (by decide)
  · exact ⟨accepted .encode [0x10] 0, _, startOp .encode 1 0 0, _, rfl, h⟩

/-- An accepted SIZE while the host goes on writing IN_BUF. -/
theorem witness_HostTrafficCannotChangeARunningOperation :
    ∃ (s : State) (o : OpState), Invariant Config.build s ∧ s.op = some o ∧ HostEvent.rst ∉ s.hostQueue ∧
      s.hostQueue = [.write 0x10000 (.b1 0x55), .wait] :=
  ⟨{ acceptCommand (decodeCmd 3) State.reset with hostQueue := [.write 0x10000 (.b1 0x55), .wait] }, _,
    invariant_hostSide (invariant_accepted_reset 3) [.write 0x10000 (.b1 0x55), .wait] [] [] 2 0 false, rfl,
    by decide, rfl⟩

theorem witness_RegisterReads :
    State.reset.status.busy = false ∧ (accepted .encode [0x10] 1).status.busy = true := ⟨rfl, rfl⟩

theorem witness_StatusWordLayout :
    Status.reset.werr = false ∧ ({ Status.reset with werr := true } : Status).werr = true := ⟨rfl, rfl⟩

/-- Each clause: a wrong width, a misaligned offset at the end of the range, and the read-only registers. -/
theorem witness_IllegalRegisterAccesses :
    ((0x0001F : Offset).toNat < 0x20 ∧ (Width.w1 ≠ .w4) ∧ (0x0001F : Offset).toNat % 4 ≠ 0) ∧
    ((0x00004 : Offset).toNat < 0x20 ∧ (∀ v, BusData.b1 0 ≠ .b4 v)) ∧
    (0x0000C : Offset).toNat < 0x20 ∧ (0x00010 : Offset).toNat < 0x20 :=
  ⟨by decide, ⟨by decide, by simp⟩, by decide, by decide⟩

/-- Each clause, at the last byte of IN_BUF. -/
theorem witness_InBufWindow :
    (255 < 256) ∧ memLookup (memWrite [] (0x10000 + 255) 0x55) (0x10000 + 255) = some 0x55 ∧
    memLookup State.reset.mem (0x10000 + 255) = none ∧ Width.w4 ≠ .w1 ∧ (∀ b, BusData.b4 0xAB ≠ .b1 b) :=
  ⟨by decide, by decide, rfl, by decide, by simp⟩

theorem witness_OutBufWindow :
    (255 < 256) ∧ State.reset.status.busy = false ∧ (accepted .encode [0x10] 1).status.busy = true ∧
    Width.w4 ≠ .w1 := by decide

/-- The three ranges, at both ends of each. -/
theorem witness_ReservedOffsetsAnswerErr :
    (0x20 ≤ (0x00020 : Offset).toNat ∧ (0x0FFFF : Offset).toNat < 0x10000) ∧
    (0x10100 ≤ (0x10100 : Offset).toNat ∧ (0x1FFFF : Offset).toNat < 0x20000) ∧
    0x20100 ≤ (0x20100 : Offset).toNat ∧ 0x20100 ≤ (0x3FFFF : Offset).toNat := by decide

/-- Each of the four ignored writes, and a write that is none of them: IN_LEN with exactly 256. -/
theorem witness_IgnoredWritesAndOnlyTheySetWerr :
    IgnoredWrite (accepted .encode [0x10] 1) 0x00000 (.b4 1) ∧
    IgnoredWrite (accepted .encode [0x10] 1) 0x00008 (.b4 3) ∧
    IgnoredWrite State.reset 0x00008 (.b4 257) ∧
    IgnoredWrite (accepted .encode [0x10] 1) 0x100FF (.b1 0x55) ∧
    (¬ IgnoredWrite State.reset 0x00008 (.b4 256) ∧ State.reset.status.werr = false) := by
  refine ⟨.inl ⟨rfl, ⟨_, rfl⟩, rfl⟩, .inr (.inl ⟨rfl, ⟨_, rfl⟩, rfl⟩), .inr (.inr (.inl ⟨rfl, _, rfl, by decide⟩)),
    .inr (.inr (.inr ⟨by decide, ⟨_, rfl⟩, rfl⟩)), ?_, rfl⟩
  rintro (⟨-, -, h⟩ | ⟨-, -, h⟩ | ⟨-, v, h, hv⟩ | ⟨-, -, h⟩)
  · cases h
  · cases h
  · cases h
    revert hv
    decide
  · cases h

/-- A read and a write that answer ERR: DV-M17 and DV-M20. -/
theorem witness_ReadsAndErrResponsesChangeNothing :
    busRead Config.build 0x00020 .w4 State.reset = (.read .err (.b4 0), State.reset) ∧
    busWrite Config.build 0x20000 (.b1 0x55) State.reset = (.write .err, State.reset) := by decide

/-- RST while an operation runs that is not due. -/
theorem witness_RstAbandonsTheRunningOperation :
    ∃ (s : State) (rest : List HostEvent), s.hostQueue = .rst :: rest ∧ s.op ≠ none ∧ (∀ o, s.op = some o → 1 ≤ o.wait) :=
  ⟨{ accepted .encode [0x10] 1 with hostQueue := [.rst] }, [], rfl, by simp [accepted], fun o ho => by
    obtain rfl : startOp .encode 1 0 1 = o := Option.some.inj ho
    decide⟩

/-- Acceptance changes BUSY, and so do a completion and RST. -/
theorem witness_OnlyAcceptanceCompletionAndResetWriteBusy :
    (∃ s t : State, Invariant Config.build s ∧ step s = .next t ∧ t.status.busy ≠ s.status.busy ∧
      s.hostQueue.head? = some (.write 0x00000 (.b4 1))) ∧
    (∃ s t : State, Invariant Config.build s ∧ step s = .next t ∧ t.status.busy ≠ s.status.busy ∧
      ∃ o, s.op = some o ∧ o.wait = 0) ∧
    (∃ s t : State, Invariant Config.build s ∧ step s = .next t ∧ t.status.busy ≠ s.status.busy ∧
      s.hostQueue.head? = some .rst) := by
  have h0 := invariant_accepted_reset 0
  refine ⟨⟨{ State.reset with hostQueue := [.write 0x00000 (.b4 1)] }, _,
      invariant_hostSide invariant_reset [.write 0x00000 (.b4 1)] [] [] 0 0 false, rfl, by decide, rfl⟩,
    ⟨{ acceptCommand (decodeCmd 0) State.reset with op := some (startOp .badCommandOp0 0 0 0) }, _,
      invariant_wait 0 h0 rfl, rfl, by decide, _, rfl, rfl⟩,
    ⟨{ acceptCommand (decodeCmd 0) State.reset with
        op := some (startOp .badCommandOp0 0 0 1), hostQueue := [.rst] }, _,
      invariant_hostSide (invariant_wait 1 h0 rfl) [.rst] [] [] 2 0 false, rfl, by decide, rfl⟩⟩

/-- Both ways to clear WERR, and one to set it. -/
theorem witness_WerrRecordsIgnoredWritesAndIsSticky :
    (∃ s t : State, step s = .next t ∧ s.status.werr = true ∧ t.status.werr = false ∧
      s.hostQueue.head? = some (.write 0x00004 (.b4 4))) ∧
    (∃ s t : State, step s = .next t ∧ s.status.werr = true ∧ t.status.werr = false ∧
      s.hostQueue.head? = some .rst) ∧
    (∃ s t : State, step s = .next t ∧ s.status.werr = false ∧ t.status.werr = true ∧
      s.hostQueue.head? = some (.write 0x00008 (.b4 257))) :=
  ⟨⟨{ State.reset with status := { Status.reset with werr := true }, hostQueue := [.write 0x00004 (.b4 4)] }, _,
      rfl, rfl, by decide, rfl⟩,
    ⟨{ State.reset with status := { Status.reset with werr := true }, hostQueue := [.rst] }, _, rfl, rfl, rfl,
      rfl⟩,
    ⟨{ State.reset with hostQueue := [.write 0x00008 (.b4 257)] }, _, rfl, rfl, by decide, rfl⟩⟩

/-- A block that the host loaded with one byte, and whose ENCODE is due. -/
def encodeDue : State :=
  { acceptCommand (decodeCmd 1) (busWrite Config.build 0x00008 (.b4 1)
      (busWrite Config.build 0x10000 (.b1 0x10) State.reset).2).2 with op := some (startOp .encode 1 0 0) }

theorem invariant_encodeDue : Invariant Config.build encodeDue :=
  invariant_wait 0 (invariant_accept (invariant_busWrite (invariant_busWrite invariant_reset _ _) _ _) 1) rfl

/-- What OUT_BUF[0] holds after a step. -/
def stepOutByte (s : State) : Option (Option Byte) :=
  match step s with
  | .next t => some (memLookup t.mem (0x20000 + 0))
  | .fault _ => none
  | .refused _ => none

/-- IN_BUF[255] written by the host; OUT_BUF[0] written by an ENCODE. -/
theorem witness_WhoWritesTheBuffers :
    (∃ s t : State, Invariant Config.build s ∧ step s = .next t ∧
      memLookup t.mem (0x10000 + 255) ≠ memLookup s.mem (0x10000 + 255)) ∧
    (∃ s t : State, Invariant Config.build s ∧ step s = .next t ∧
      memLookup t.mem (0x20000 + 0) ≠ memLookup s.mem (0x20000 + 0)) := by
  refine ⟨⟨{ State.reset with hostQueue := [.write 0x100FF (.b1 0x55)] }, _,
      invariant_hostSide invariant_reset [.write 0x100FF (.b1 0x55)] [] [] 0 0 false, rfl, by decide⟩, ?_⟩
  have h : stepOutByte encodeDue = some (some 0xAB) := by decide
  unfold stepOutByte at h
  cases hs : step encodeDue with
  | next t =>
    rw [hs] at h
    exact ⟨_, t, invariant_encodeDue, hs, by rw [Option.some.inj h]; decide⟩
  | fault r =>
    rw [hs] at h
    cases h
  | refused r =>
    rw [hs] at h
    cases h

theorem witness_EveryStepKeepsTheInvariant : ∃ s t : State, Invariant Config.build s ∧ step s = .next t :=
  ⟨State.reset, _, invariant_reset, rfl⟩

theorem witness_EveryStepAnswers : Invariant Config.build State.reset := invariant_reset

theorem witness_EveryRunFromResetIsSafe :
    RunsTo 0 { State.reset with hostQueue := [.wait], durations := [3] }
      { State.reset with hostQueue := [.wait], durations := [3] } := rfl

end Sys2Proof.Tests
end

/-! PROOFS for 10_state.md, part 1: the invariant of the block along every step and every run. -/
section

namespace Sys2Proof.Proofs

open Sys2Proof.Machine Sys2Proof.Safety

/-- A running operation of a state of the invariant completes within the bound on the internal steps that are
left, and the invariant holds after it (R114, R115). -/
theorem runOp_completes {fuel : Nat} {o : OpState} {s : State}
    (hi : Invariant Config.build { s with op := some o }) (hfuel : stepsLeft o ≤ fuel) :
    ∃ t, runOp (microStep Config.build) fuel o s = .next t ∧ Invariant Config.build t := by
  induction fuel generalizing o s with
  | zero =>
    have := stepsLeft_pos o
    omega
  | succ fuel ih =>
    rw [runOp_succ]
    cases hm : microStep Config.build o s with
    | running o' s' =>
      have hless := microStep_stepsLeft hm
      exact ih (invariant_goesOn hi hm) (by omega)
    | finished t => exact ⟨t, rfl, invariant_ends hi hm⟩
    | fault r => exact absurd hm (microStep_answers hi r)

/-- The atomic completion of the accepted command answers and keeps the invariant (R114). -/
theorem exec_completes {s : State} {o : OpState} (hi : Invariant Config.build s) (ho : s.op = some o) :
    ∃ t, exec o.opr s = .next t ∧ Invariant Config.build t := by
  have hbound := stepsLeft_le o
  rw [exec_microStep ho]
  exact runOp_completes (invariant_wait o.wait hi ho) (by unfold stepBound; omega)

/-- From a state of the invariant a step answers, with a state of the invariant (R200). -/
theorem step_answers_and_keeps_invariant {s : State} (hi : Invariant Config.build s) :
    ∃ t, step s = .next t ∧ Invariant Config.build t := by
  unfold step
  cases ho : s.op with
  | none => exact ⟨_, rfl, invariant_hostTurn hi⟩
  | some o =>
    cases hw : o.wait with
    | zero =>
      simp only [hw]
      exact exec_completes hi ho
    | succ w =>
      simp only [hw]
      exact ⟨_, rfl, invariant_hostTurn (invariant_advance (invariant_wait w hi ho))⟩

/-- A run begins with a step. -/
theorem run_succ_of_step {M : Host.Core} {s u : M.State} (k : Nat) (h : M.step s = .next u) :
    M.run (k + 1) s = M.run k u := by
  rw [Host.Core.run, h]

/-- The induction over steps, once: a run from a state of the invariant goes on for any number of steps, and
leads to a state of the invariant. -/
theorem run_answers_and_keeps_invariant (k : Nat) {s : State} (hi : Invariant Config.build s) :
    ∃ t, RunsTo k s t ∧ Invariant Config.build t := by
  induction k generalizing s with
  | zero => exact ⟨s, rfl, hi⟩
  | succ k ih =>
    obtain ⟨u, hstep, hu⟩ := step_answers_and_keeps_invariant hi
    obtain ⟨t, hrun, ht⟩ := ih hu
    exact ⟨t, (run_succ_of_step (M := Sys2Proof.core) k hstep).trans hrun, ht⟩

/-- Settles O58: a step answers with one state only, and that state meets the invariant. -/
theorem everyStepKeepsTheInvariant : Obligations.EveryStepKeepsTheInvariant := by
  intro s t hi hstep
  obtain ⟨u, hu, hinv⟩ := step_answers_and_keeps_invariant hi
  cases hstep.symm.trans hu
  exact hinv

/-- Settles O57: reset gives the invariant, and the counters of draws are no part of it. -/
theorem resetSatisfiesTheInvariant : Obligations.ResetSatisfiesTheInvariant :=
  invariant_hostSide (invariant_resetBlock State.reset) [] [] [] 0 0 false

/-- Settles O60: the invariant holds along the run, and says that the flags agree. -/
theorem everyRunFromResetIsSafe : Obligations.EveryRunFromResetIsSafe := by
  intro queue durations
  have run := fun k => run_answers_and_keeps_invariant k
    (invariant_hostSide resetSatisfiesTheInvariant queue [] durations 0 0 false)
  refine ⟨fun k => (run k).imp fun _ => And.left, fun k t ht => ?_⟩
  obtain ⟨u, hu, hinv⟩ := run k
  cases ht.symm.trans hu
  exact ⟨hinv.busyExcludesDone, hinv.resultWhenDone⟩

end Sys2Proof.Proofs
end

/-! PROOFS for 10_state.md, part 2: the registers as the host accesses them. -/
section

namespace Sys2Proof.Proofs

open Sys2Proof.Machine Sys2Proof.Safety

/-- A 4-byte read at the offset of a register is a legal read of that register (R52). -/
theorem busRead_register {off : Offset} {r : Reg} (hoff : off.toNat < 0x20) (hr : regAt off = some r) (s : State) :
    busRead Config.build off .w4 s =
      (.read .okay (.b4 (readReg Config.build r s).1), (readReg Config.build r s).2) := by
  simp [busRead, regionOf_registers hoff, hr]

/-- A 4-byte write at the offset of a register is a write to that register (R52). -/
theorem busWrite_register {off : Offset} {r : Reg} (hoff : off.toNat < 0x20) (hr : regAt off = some r) (v : Word)
    (s : State) : busWrite Config.build off (.b4 v) s = writeReg Config.build r v s := by
  simp [busWrite, regionOf_registers hoff, hr]

/-- A write of any width to a register that takes none answers ERR (R52). -/
theorem busWrite_readOnly {off : Offset} {r : Reg} (hoff : off.toNat < 0x20) (hr : regAt off = some r)
    {s : State} (hro : ∀ v, writeReg Config.build r v s = (.write .err, s)) (d : BusData) :
    busWrite Config.build off d s = (.write .err, s) := by
  cases d with
  | b1 v => simp [busWrite, regionOf_registers hoff]
  | b2 v => simp [busWrite, regionOf_registers hoff]
  | b4 v => rw [busWrite_register hoff hr, hro]

/-- The only effect of a write to STATUS, in one formula (R24). -/
theorem writeStatus_eq (v : Word) (s : State) :
    writeStatus v s = { s with status := { s.status with werr := s.status.werr && !v.getLsbD 2 } } := by
  unfold writeStatus
  cases v.getLsbD 2 <;> simp

/-- Settles O41. -/
theorem hardwiredRegisters : Obligations.HardwiredRegisters := by
  intro s
  refine ⟨busRead_register (r := .cfgRsv) (by decide) (by decide) s,
    busRead_register (r := .cfgCode) (by decide) (by decide) s,
    busRead_register (r := .cap) (by decide) (by decide) s, fun d => ⟨?_, ?_, ?_⟩⟩
  · exact busWrite_readOnly (r := .cfgRsv) (by decide) (by decide) (fun _ => rfl) d
  · exact busWrite_readOnly (r := .cfgCode) (by decide) (by decide) (fun _ => rfl) d
  · exact busWrite_readOnly (r := .cap) (by decide) (by decide) (fun _ => rfl) d

/-- Settles O42: each read is `readReg` of its register, which asks BUSY for OUT_LEN and SIZE_VAL only. -/
theorem registerReads : Obligations.RegisterReads := by
  intro s
  have outLen := busRead_register (off := 0x0000C) (r := .outLen) (by decide) (by decide) s
  have sizeVal := busRead_register (off := 0x00010) (r := .sizeVal) (by decide) (by decide) s
  refine ⟨busRead_register (r := .cmd) (by decide) (by decide) s,
    busRead_register (r := .status) (by decide) (by decide) s,
    busRead_register (r := .inLen) (by decide) (by decide) s, fun hidle => ?_, fun hbusy => ?_⟩
  · simp only [readReg, hidle] at outLen sizeVal
    exact ⟨outLen, sizeVal⟩
  · simp only [readReg, hbusy] at outLen sizeVal
    exact ⟨_, _, outLen, sizeVal⟩

/-- Settles O44. -/
theorem statusWriteClearsWerrOnly : Obligations.StatusWriteClearsWerrOnly := by
  intro s v
  rw [← writeStatus_eq]
  exact busWrite_register (r := .status) (by decide) (by decide) v s

/-- Settles O45: the three cases are those of `writeInLen`, with IN_CAP = 256. -/
theorem inLenWrite : Obligations.InLenWrite := by
  intro s v
  exact busWrite_register (r := .inLen) (by decide) (by decide) v s

/-- Settles O52: the registers that hold no state read after reset as they read in every state. -/
theorem resetValues : Obligations.ResetValues := by
  obtain ⟨cfgRsv, cfgCode, cap, -⟩ := hardwiredRegisters State.reset
  obtain ⟨cmd, -⟩ := registerReads State.reset
  exact ⟨rfl, by decide, rfl, rfl, rfl, rfl, congrArg Prod.fst cmd, congrArg Prod.fst cfgRsv,
    congrArg Prod.fst cfgCode, congrArg Prod.fst cap, fun _ => rfl⟩

end Sys2Proof.Proofs
end

/-! PROOFS for 10_state.md, part 3: what one step changes of STATUS and of memory. -/
section

namespace Sys2Proof.Proofs

open Sys2Proof.Machine Sys2Proof.Safety

/-- What the host's turn from `s` to `t` does to STATUS and to memory, with the event that does it (R24 to R29,
R53, R110, R112, R230). -/
inductive TurnEffect (s t : State) : Prop where
  /-- RST -/
  | reset : s.hostQueue.head? = some .rst → t.status = Status.reset → TurnEffect s t
  /-- a write to CMD is accepted -/
  | accepted (v : Word) : s.hostQueue.head? = some (.write 0x00000 (.b4 v)) → s.status.busy = false →
      t.status = acceptStatus s.status → t.mem = s.mem → TurnEffect s t
  /-- a write is ignored and flagged -/
  | ignored (off : Offset) (d : BusData) : s.hostQueue.head? = some (.write off d) → IgnoredWrite s off d →
      t.status = { s.status with werr := true } → t.mem = s.mem → TurnEffect s t
  /-- a 1 is written to STATUS bit 2 -/
  | werrCleared (v : Word) : s.hostQueue.head? = some (.write 0x00004 (.b4 v)) → v.getLsbD 2 = true →
      t.status = { s.status with werr := false } → t.mem = s.mem → TurnEffect s t
  /-- a byte of IN_BUF is written -/
  | inBufWritten (off : Offset) (k : Nat) (b : Byte) : s.hostQueue.head? = some (.write off (.b1 b)) →
      inBase + k = off.toNat → k < 256 → s.status.busy = false → t.status = s.status →
      t.mem = memWrite s.mem (inBase + k) b → TurnEffect s t
  /-- every other turn -/
  | quiet : t.status = s.status → t.mem = s.mem → TurnEffect s t

/-- The effect of a bus write at the head of the queue. -/
theorem busWrite_effect {s : State} {off : Offset} {d : BusData} (rest : List HostEvent)
    (hq : s.hostQueue.head? = some (.write off d)) :
    TurnEffect s (respond (busWrite Config.build off d { s with hostQueue := rest })) := by
  rcases busWrite_cases Config.build off d { s with hostQueue := rest } with h | ⟨v, rfl, rfl, h⟩ |
    ⟨v, rfl, rfl, h⟩ | ⟨v, rfl, rfl, h⟩ | ⟨k, b, ⟨hk, hcap⟩, rfl, h⟩ <;> rw [h]
  · exact .quiet rfl rfl
  · unfold writeCmd
    split
    · exact .ignored _ _ hq (.inl ⟨rfl, ⟨v, rfl⟩, ‹_›⟩) rfl rfl
    · exact .accepted v hq (Bool.eq_false_of_not_eq_true ‹_›) rfl rfl
  · unfold writeStatus
    split
    · exact .werrCleared v hq ‹_› rfl rfl
    · exact .quiet rfl rfl
  · unfold writeInLen
    split
    · exact .ignored _ _ hq (.inr (.inl ⟨rfl, ⟨v, rfl⟩, ‹_›⟩)) rfl rfl
    · split
      · exact .ignored _ _ hq (.inr (.inr (.inl ⟨rfl, v, rfl, ‹_›⟩))) rfl rfl
      · exact .quiet rfl rfl
  · rw [inBase_eq] at hk
    rw [inCap_eq] at hcap
    unfold writeInBuf
    split
    · exact .ignored _ _ hq (.inr (.inr (.inr ⟨by omega, ⟨b, rfl⟩, ‹_›⟩))) rfl rfl
    · exact .inBufWritten off k b hq hk hcap (Bool.eq_false_of_not_eq_true ‹_›) rfl rfl

/-- A bus read changes neither STATUS nor memory (R60). -/
theorem busRead_status_mem (off : Offset) (n : Width) (s : State) :
    (busRead Config.build off n s).2.status = s.status ∧ (busRead Config.build off n s).2.mem = s.mem := by
  rcases (busRead_cases Config.build off n s).1 with h | h <;> rw [h] <;> exact ⟨rfl, rfl⟩

/-- Every turn of the host has one of the effects. -/
theorem hostTurn_effect (s : State) : TurnEffect s (hostTurn Config.build s) := by
  unfold hostTurn
  cases hq : s.hostQueue with
  | nil => exact .quiet rfl rfl
  | cons e rest =>
    cases e with
    | read off n =>
      obtain ⟨hst, hm⟩ := busRead_status_mem off n { s with hostQueue := rest }
      exact .quiet hst hm
    | write off d => exact busWrite_effect rest (by rw [hq]; rfl)
    | wait => exact .quiet (by simp only [hostEvent, poll_eq]) (by simp only [hostEvent, poll_eq])
    | waitIdle => exact .quiet (by simp only [hostEvent, poll_eq]) (by simp only [hostEvent, poll_eq])
    | rst => exact .reset (by rw [hq]; rfl) rfl

/-- The record of the running operation is none of what a step leaves unchanged. -/
theorem outsideUnchanged_withOp {p : Params} {s t : State} (h : OutsideUnchanged p s t) (op : Option OpState) :
    OutsideUnchanged p s { t with op := op } := { h with }

/-- The codec's work before a turn of the host leaves STATUS and everything outside OUT_BUF as it was (R113). -/
theorem advance_outside (s : State) (o : OpState) :
    OutsideUnchanged Config.build s (advance Config.build o s) ∧ (advance Config.build o s).status = s.status := by
  unfold advance
  cases hm : microStep Config.build o s with
  | running o' s' =>
    have g := microStep_goesOn hm
    exact ⟨outsideUnchanged_withOp g.outside _, g.status⟩
  | finished t => exact ⟨outsideUnchanged_withOp (.refl _ s) _, rfl⟩
  | fault r => exact ⟨outsideUnchanged_withOp (.refl _ s) _, rfl⟩

/-- What a step is: a turn of the host in a state `u` that is `s` but for the codec's work, which is none where no
operation runs; or the completion of the operation that was due. -/
theorem step_cases {s t : State} (h : step s = .next t) :
    (∃ u, OutsideUnchanged Config.build s u ∧ u.status = s.status ∧ (s.op = none → u.mem = s.mem) ∧
      t = hostTurn Config.build u) ∨
    (∃ o c, s.op = some o ∧ o.wait = 0 ∧ OutsideUnchanged Config.build s t ∧ t.status = finishStatus c s.status) := by
  unfold step at h
  cases ho : s.op with
  | none =>
    rw [ho] at h
    cases h
    exact .inl ⟨s, .refl _ s, rfl, fun _ => rfl, rfl⟩
  | some o =>
    cases hw : o.wait with
    | zero =>
      simp only [ho, hw] at h
      rw [exec_microStep ho] at h
      obtain ⟨hout, -, c, -, hst⟩ := runOp_microStep_ends h
      exact .inr ⟨o, c, rfl, hw, hout, hst⟩
    | succ w =>
      simp only [ho, hw] at h
      cases h
      obtain ⟨hout, hst⟩ := advance_outside s { o with wait := w }
      exact .inl ⟨_, hout, hst, by simp, rfl⟩

/-- While an operation runs BUSY = 1 (R25). -/
theorem busy_of_op {s : State} {o : OpState} (hi : Invariant Config.build s) (ho : s.op = some o) :
    s.status.busy = true := by
  rw [hi.busyWhileRunning, ho]
  rfl

/-- Settles O54: of the turns of the host only RST and an accepted command change BUSY. -/
theorem onlyAcceptanceCompletionAndResetWriteBusy : Obligations.OnlyAcceptanceCompletionAndResetWriteBusy := by
  intro s t hi hstep hbusy
  rcases step_cases hstep with ⟨u, hout, hst, -, rfl⟩ | ⟨o, c, ho, hw, -, ht⟩
  · rw [← hst] at hbusy
    rw [← hst, ← hout.hostQueue]
    cases hostTurn_effect u with
    | reset hq ht =>
      rw [ht] at hbusy
      exact .inr (.inr ⟨by simpa [Status.reset] using hbusy, hq⟩)
    | accepted v hq hidle => exact .inl ⟨hidle, v, hq⟩
    | ignored _ _ _ _ ht => exact absurd (by rw [ht]) hbusy
    | werrCleared _ _ _ ht => exact absurd (by rw [ht]) hbusy
    | inBufWritten _ _ _ _ _ _ _ ht => exact absurd (by rw [ht]) hbusy
    | quiet ht => exact absurd (by rw [ht]) hbusy
  · exact .inr (.inl ⟨busy_of_op hi ho, ⟨o, ho, hw⟩, by rw [ht]; rfl⟩)

/-- Settles O55: a completion keeps WERR, and the effects of the host's turn name what sets and clears it. -/
theorem werrRecordsIgnoredWritesAndIsSticky : Obligations.WerrRecordsIgnoredWritesAndIsSticky := by
  intro s t hstep
  by_cases hsame : t.status.werr = s.status.werr
  · rw [hsame]
    exact ⟨fun h h' => absurd (h.symm.trans h') (by simp), fun h h' => absurd (h.symm.trans h') (by simp)⟩
  rcases step_cases hstep with ⟨u, hout, hst, -, rfl⟩ | ⟨o, c, -, -, hout, -⟩
  · rw [← hst] at hsame
    rw [← hst, ← hout.hostQueue, show IgnoredWrite s = IgnoredWrite u by unfold IgnoredWrite; rw [hst]]
    cases hostTurn_effect u with
    | reset hq ht => exact ⟨fun _ _ => .inr hq, fun _ h => by simp [ht, Status.reset] at h⟩
    | ignored off d hq hig ht => exact ⟨fun _ h => by simp [ht] at h, fun _ _ => ⟨off, d, hq, hig⟩⟩
    | werrCleared v hq hv ht => exact ⟨fun _ _ => .inl ⟨v, hq, hv⟩, fun _ h => by simp [ht] at h⟩
    | accepted _ _ _ ht => exact absurd (by rw [ht]; rfl) hsame
    | inBufWritten _ _ _ _ _ _ _ ht => exact absurd (by rw [ht]) hsame
    | quiet ht => exact absurd (by rw [ht]) hsame
  · exact absurd hout.werr hsame

/-- What the codec does leaves IN_BUF[k] as it was (R61). -/
theorem inBuf_outside {s t : State} (h : OutsideUnchanged Config.build s t) {k : Nat} (hk : k < 256) :
    memLookup t.mem (0x10000 + k) = memLookup s.mem (0x10000 + k) :=
  h.bytes _ fun j _ => by
    rw [outBase_eq]
    omega

/-- Settles O56: the codec writes OUT_BUF only, and only while an operation runs; the host writes IN_BUF only. -/
theorem whoWritesTheBuffers : Obligations.WhoWritesTheBuffers := by
  intro s t k hi hstep hk
  rcases step_cases hstep with ⟨u, hout, hst, hidle, rfl⟩ | ⟨o, c, ho, -, hout, -⟩
  · have busy_or_same : s.status.busy = true ∨ u.mem = s.mem := by
      by_cases hb : s.status.busy = true
      · exact .inl hb
      · exact .inr (hidle (op_of_not_busy hi hb))
    rw [← inBuf_outside hout hk, ← hst, ← hout.hostQueue]
    rw [← hst] at busy_or_same
    by_cases hsame : (hostTurn Config.build u).mem = u.mem
    · rw [hsame]
      exact ⟨fun hne => absurd rfl hne, fun hne => busy_or_same.imp_right fun h => absurd (by rw [h]) hne⟩
    cases hostTurn_effect u with
    | reset hq => exact ⟨fun _ => .inr hq, fun _ => .inr hq⟩
    | accepted _ _ _ _ hm => exact absurd hm hsame
    | ignored _ _ _ _ _ hm => exact absurd hm hsame
    | werrCleared _ _ _ _ hm => exact absurd hm hsame
    | quiet _ hm => exact absurd hm hsame
    | inBufWritten off j b hq hoff hj hb _ hm =>
      rw [hm]
      rw [inBase_eq] at hoff ⊢
      refine ⟨fun hne => .inl ⟨hb, b, ?_⟩, fun hne => busy_or_same.imp_right fun h => absurd ?_ hne⟩
      · obtain rfl : k = j := by
          by_contra hkj
          exact hne (memLookup_memWrite_other _ (by omega))
        rw [hq, hoff, BitVec.ofNat_toNat, BitVec.setWidth_eq]
      · rw [memLookup_memWrite_other _ (by omega), h]
  · exact ⟨fun hne => absurd (inBuf_outside hout hk) hne, fun _ => .inl (busy_of_op hi ho)⟩

end Sys2Proof.Proofs
end

/-! PROOFS for 10_state.md, part 4: two runs of one command whose reads of the input agree (R39). -/
section

namespace Sys2Proof.Proofs

open Sys2Proof.Machine Sys2Proof.Safety

/-- Two internal steps that keep step with each other: both go on, in states related by `P`, or both complete, in
states related by `Q`, or a guard of the model stops one of them. -/
inductive Matched (P : OpState → State → OpState → State → Prop) (Q : State → State → Prop) : Micro → Micro → Prop where
  | running {o o' : OpState} {s s' : State} : P o s o' s' → Matched P Q (.running o s) (.running o' s')
  | finished {t t' : State} : Q t t' → Matched P Q (.finished t) (.finished t')
  | faultLeft (r : Fault) (m : Micro) : Matched P Q (.fault r) m
  | faultRight (r : Fault) (m : Micro) : Matched P Q m (.fault r)

/-- The induction over the internal steps of two runs, once: where every pair of steps keeps step, the completions
are related. -/
theorem runOp_matched {f : OpState → State → Micro} {P : OpState → State → OpState → State → Prop}
    {Q : State → State → Prop} (hstep : ∀ o s o' s', P o s o' s' → Matched P Q (f o s) (f o' s'))
    {fuel : Nat} {o o' : OpState} {s s' t t' : State} (hP : P o s o' s')
    (h : runOp f fuel o s = .next t) (h' : runOp f fuel o' s' = .next t') : Q t t' := by
  induction fuel generalizing o o' s s' with
  | zero => cases h
  | succ fuel ih =>
    rw [runOp_succ] at h h'
    have hm := hstep _ _ _ _ hP
    generalize f o s = x at h hm
    generalize f o' s' = x' at h' hm
    cases hm with
    | running hP' => exact ih hP' h h'
    | finished hQ =>
      cases h
      cases h'
      exact hQ
    | faultLeft => cases h
    | faultRight => cases h'

/-- Two states that an operation over N input bytes cannot tell apart: its first reads, at the draws `d` and `d'`,
give equal bytes, its second reads do, and the first `m` bytes of OUT_BUF are equal. -/
structure SameView (n m d d' : Nat) (s s' : State) : Prop where
  inside : n ≤ 256
  first : ∀ k < n, inByte d' k s' = inByte d k s
  again : ∀ k < n, inByte (d' + 1) k s' = inByte (d + 1) k s
  written : ∀ k < m, outByte k s' = outByte k s

/-- The operation `o'` stands where `o` stands, with `m` output bytes written, and its state looks the same. -/
def Alike (m : OpState → Nat) (o : OpState) (s : State) (o' : OpState) (s' : State) : Prop :=
  ∃ d w, o' = { o with draw := d, wait := w } ∧ SameView o.n (m o) o.draw d s s'

/-- What a completion reports and returns is the same. -/
def SameResults (t t' : State) : Prop := t'.status.result = t.status.result ∧ output t' = output t

theorem inByte_writeOut {k : Nat} (hk : k < 256) (d m : Nat) (v : Byte) (s : State) :
    inByte d k (writeOut m v s) = inByte d k s := by
  unfold inByte
  rw [writeOut_mem, memLookup_memWrite_other _ (by rw [inBase_eq, outBase_eq]; omega)]

theorem outByte_writeOut (k m : Nat) (v : Byte) (s : State) :
    outByte k (writeOut m v s) = if k = m then v else outByte k s := by
  unfold outByte
  rw [writeOut_mem, memLookup_memWrite]
  by_cases h : k = m <;> simp [h]

section View

variable {n m d d' : Nat} {s s' : State}

/-- Fewer output bytes are compared. -/
theorem SameView.mono {m' : Nat} (h : SameView n m d d' s s') (hm : m' ≤ m) : SameView n m' d d' s s' :=
  ⟨h.inside, h.first, h.again, fun k hk => h.written k (by omega)⟩

/-- The same byte is written to both outputs. -/
theorem SameView.writeOut (h : SameView n m d d' s s') (v : Byte) :
    SameView n (m + 1) d d' (writeOut m v s) (writeOut m v s') := by
  have inside := h.inside
  refine ⟨inside, fun k hk => ?_, fun k hk => ?_, fun k hk => ?_⟩
  · rw [inByte_writeOut (by omega), inByte_writeOut (by omega), h.first k hk]
  · rw [inByte_writeOut (by omega), inByte_writeOut (by omega), h.again k hk]
  · rw [outByte_writeOut, outByte_writeOut]
    split
    · rfl
    · exact h.written k (by omega)

/-- The same bytes are written to both outputs. -/
theorem SameView.writeList (h : SameView n m d d' s s') (bs : List Byte) :
    SameView n (m + bs.length) d d' { s with mem := memWriteList s.mem (outBase + m) bs }
      { s' with mem := memWriteList s'.mem (outBase + m) bs } := by
  induction bs generalizing m s s' with
  | nil => exact h
  | cons b bs ih =>
    have hrest := ih (h.writeOut b)
    rwa [Nat.add_assoc, Nat.add_comm 1] at hrest

theorem SameView.inputAt_eq (h : SameView n m d d' s s') : inputAt d' n s' = inputAt d n s :=
  List.map_congr_left fun k hk => h.first k (List.mem_range.1 hk)

/-- A completion returns the output bytes written so far, or none. -/
theorem SameView.finish (h : SameView n m d d' s s') (c : ResultCode) {j : Nat} (hj : j ≤ m) :
    SameResults (finish c (setOutLen j s)) (finish c (setOutLen j s')) := by
  have hlen : (BitVec.ofNat 32 j).toNat ≤ j := by
    rw [BitVec.toNat_ofNat]
    exact Nat.mod_le _ _
  refine ⟨rfl, List.map_congr_left fun k hk => ?_⟩
  have hk' : k < (BitVec.ofNat 32 j).toNat := List.mem_range.1 hk
  exact h.written k (by omega)

end View

section Reads

variable {m d w : Nat} {o : OpState} {s s' : State}

/-- The first reads of two alike operations agree, stops included. -/
theorem readIn_same (h : SameView o.n m o.draw d s s') (p : Params) (k : Nat) :
    readIn p { o with draw := d, wait := w } k s' = readIn p o k s := by
  by_cases hk : k < o.n
  · exact congrArg (guardIn p o k) (h.first k hk)
  · simp [readIn, guardIn, hk]

/-- The second reads of two alike operations agree, stops included. -/
theorem readAgain_same (h : SameView o.n m o.draw d s s') (p : Params) (k : Nat) :
    readAgain p { o with draw := d, wait := w } k s' = readAgain p o k s := by
  by_cases hk : k < o.n
  · exact congrArg (guardIn p o k) (h.again k hk)
  · simp [readAgain, guardIn, hk]

theorem readInput_same (h : SameView o.n m o.draw d s s') (p : Params) :
    readInput p { o with draw := d, wait := w } s' = readInput p o s := by
  simp only [readInput, opInput, h.inputAt_eq]

theorem encodedByte_same (h : SameView o.n m o.draw d s s') (p : Params) {k : Nat} (hk : k < o.n) :
    encodedByte p { o with draw := d, wait := w } k s' = encodedByte p o k s := by
  simp only [encodedByte, againByte, h.first k hk, h.again k hk]

end Reads

/-! ### DECODE -/

/-- The relation of two steps of DECODE. -/
abbrev DecodeMatched : Micro → Micro → Prop := Matched (Alike OpState.cnt) SameResults

section Decode

variable {d w : Nat} {o : OpState} {s s' : State} (h : SameView o.n o.cnt o.draw d s s')
include h

/-- `append` of the same byte (R153). -/
theorem append_matched (v : Byte) :
    DecodeMatched (append Config.build v o s) (append Config.build v { o with draw := d, wait := w } s') := by
  unfold append
  dsimp only
  split
  · exact .running ⟨d, w, rfl, h.writeOut v⟩
  · exact .finished (h.finish _ (Nat.zero_le _))

theorem decodeSeek_matched :
    DecodeMatched (decodeSeek Config.build o s) (decodeSeek Config.build { o with draw := d, wait := w } s') := by
  unfold decodeSeek
  rw [readIn_same h]
  dsimp only
  split
  · exact .finished (h.finish _ (Nat.zero_le _))
  · cases readIn Config.build o o.i s with
    | error r => exact .faultLeft _ _
    | ok b =>
      dsimp only
      split <;> exact .running ⟨d, w, rfl, h⟩

theorem decodeBody_matched :
    DecodeMatched (decodeBody Config.build o s) (decodeBody Config.build { o with draw := d, wait := w } s') := by
  unfold decodeBody
  rw [readIn_same h]
  dsimp only
  split
  · exact .running ⟨d, w, rfl, h⟩
  · cases readIn Config.build o o.i s with
    | error r => exact .faultLeft _ _
    | ok b =>
      dsimp only
      split
      · exact .running ⟨d, w, rfl, h.mono (Nat.zero_le _)⟩
      · split
        · exact .running ⟨d, w, rfl, h⟩
        · split
          · exact .running ⟨d, w, rfl, h⟩
          · exact append_matched (o := { o with i := o.i + 1 }) h b

theorem decodeEsc_matched :
    DecodeMatched (decodeEsc Config.build o s) (decodeEsc Config.build { o with draw := d, wait := w } s') := by
  unfold decodeEsc
  rw [readIn_same h]
  cases readIn Config.build o o.i s with
  | error r => exact .faultLeft _ _
  | ok c =>
    dsimp only
    cases reservedOf Config.build c with
    | none => exact .finished (h.finish _ (Nat.zero_le _))
    | some v => exact append_matched (o := { o with i := o.i + 1, dstate := .body }) h v

theorem decodeFinal_matched :
    DecodeMatched (decodeFinal Config.build o s) (decodeFinal Config.build { o with draw := d, wait := w } s') := by
  unfold decodeFinal
  rw [readAgain_same h]
  cases readAgain Config.build o (o.n - 1) s with
  | error r => exact .faultLeft _ _
  | ok b =>
    dsimp only
    rw [show finalCheck Config.build { o with draw := d, wait := w } b = finalCheck Config.build o b from rfl]
    split <;> exact .finished (h.finish _ (Nat.le_refl _))

end Decode

/-- Two DECODEs that are alike keep step (R152). -/
theorem decodeStep_matched (o : OpState) (s : State) (o' : OpState) (s' : State) (h : Alike OpState.cnt o s o' s') :
    DecodeMatched (decodeStep Config.build o s) (decodeStep Config.build o' s') := by
  obtain ⟨d, w, rfl, h⟩ := h
  unfold decodeStep scanStep
  dsimp only
  split
  · exact .finished (h.finish _ (Nat.zero_le _))
  · split
    · exact decodeSeek_matched h
    · exact decodeBody_matched h
    · exact decodeEsc_matched h
    · exact decodeFinal_matched h

/-! ### ENCODE -/

/-- Two ENCODEs of N bytes that are alike, and agree on SIZE_VAL from the emit of START on. -/
def EncodeAlike (n : Nat) (o : OpState) (s : State) (o' : OpState) (s' : State) : Prop :=
  Alike OpState.j o s o' s' ∧ o.n = n ∧ (o.j ≠ 0 → s'.sizeVal = s.sizeVal)

/-- What the completion of an ENCODE of N bytes reports and returns is the same; SIZE_VAL is written where N is
not 0 (R134). -/
def SameEncodeResults (n : Nat) (t t' : State) : Prop := SameResults t t' ∧ (1 ≤ n → t'.sizeVal = t.sizeVal)

/-- The loop body of ENCODE emits the wire form of one byte, or a guard of the model stops it (R131). -/
theorem encodeStep_byte (p : Params) {o : OpState} (s : State) (hj : o.j ≠ 0) (hk : o.k < o.n) :
    (∃ r, encodeStep p o s = .fault r) ∨
    encodeStep p o s =
      .running { o with k := o.k + 1, j := o.j + (wireForm p (encodedByte p o o.k s)).length }
        { s with mem := memWriteList s.mem (outBase + o.j) (wireForm p (encodedByte p o o.k s)) } := by
  rcases encodeLoop_cases p o s hj with ⟨r, -, he⟩ | ⟨j, -, rfl, -, he⟩ | ⟨hk', -, -⟩
  · exact .inl ⟨r, he⟩
  · exact .inr (by simpa using he)
  · omega

section Encode

variable {d w : Nat} {o : OpState} {s s' : State} (h : SameView o.n o.j o.draw d s s')
include h

/-- The steps before the loop (R131). -/
theorem encodeBegin_matched :
    Matched (EncodeAlike o.n) (SameEncodeResults o.n) (encodeBegin Config.build o s)
      (encodeBegin Config.build { o with draw := d, wait := w } s') := by
  unfold encodeBegin
  rw [readInput_same h]
  dsimp only
  split
  · exact .finished ⟨h.finish _ (Nat.zero_le _), by omega⟩
  · cases readInput Config.build o s with
    | error r => exact .faultLeft _ _
    | ok payload =>
      have hsized : SameView o.n o.j o.draw d (setSizeVal (encSize Config.build payload) s)
        (setSizeVal (encSize Config.build payload) s') := ⟨h.inside, h.first, h.again, h.written⟩
      dsimp only
      split
      · exact .finished ⟨hsized.finish _ (Nat.zero_le _), fun _ => rfl⟩
      · by_cases hfit : o.j < Config.build.outCap
        · simp only [emit, if_pos hfit]
          exact .running ⟨⟨d, w, rfl, hsized.writeOut _⟩, rfl, fun _ => rfl⟩
        · simp only [emit, if_neg hfit]
          exact .faultLeft _ _

/-- The loop body (R131). -/
theorem encodeByte_matched (hj : o.j ≠ 0) (hk : o.k < o.n) (hsize : s'.sizeVal = s.sizeVal) :
    Matched (EncodeAlike o.n) (SameEncodeResults o.n) (encodeStep Config.build o s)
      (encodeStep Config.build { o with draw := d, wait := w } s') := by
  rcases encodeStep_byte Config.build s hj hk with ⟨r, he⟩ | he
  · rw [he]
    exact .faultLeft _ _
  rcases encodeStep_byte Config.build (o := { o with draw := d, wait := w }) s' hj hk with ⟨r, he'⟩ | he'
  · rw [he']
    exact .faultRight _ _
  · rw [he, he', encodedByte_same h _ hk]
    exact .running ⟨⟨d, w, rfl, h.writeList _⟩, rfl, fun _ => hsize⟩

/-- The steps after the loop (R131). -/
theorem encodeEnd_matched (hsize : s'.sizeVal = s.sizeVal) :
    Matched (EncodeAlike o.n) (SameEncodeResults o.n) (encodeEnd Config.build o s)
      (encodeEnd Config.build { o with draw := d, wait := w } s') := by
  unfold encodeEnd
  by_cases hfit : o.j < Config.build.outCap
  · simp only [emit, if_pos hfit]
    exact .finished ⟨(h.writeOut _).finish _ (Nat.le_refl _), fun _ => hsize⟩
  · simp only [emit, if_neg hfit]
    exact .faultLeft _ _

end Encode

/-- Two ENCODEs that are alike keep step (R131). -/
theorem encodeStep_matched (n : Nat) (o : OpState) (s : State) (o' : OpState) (s' : State)
    (h : EncodeAlike n o s o' s') :
    Matched (EncodeAlike n) (SameEncodeResults n) (encodeStep Config.build o s) (encodeStep Config.build o' s') := by
  obtain ⟨⟨d, w, rfl, h⟩, rfl, hsize⟩ := h
  by_cases hj : o.j = 0
  · unfold encodeStep
    rw [if_pos hj, if_pos hj]
    exact encodeBegin_matched h
  · by_cases hk : o.k < o.n
    · exact encodeByte_matched h hj hk (hsize hj)
    · unfold encodeStep
      rw [if_neg hj, if_neg hj, if_neg hk, if_neg hk]
      exact encodeEnd_matched h (hsize hj)

/-! ### SIZE, and the start of both runs -/

/-- Two SIZEs that are alike keep step (R182). -/
theorem sizeStep_matched (o : OpState) (s : State) (o' : OpState) (s' : State) (h : Alike (fun _ => 0) o s o' s') :
    Matched (Alike fun _ => 0) (fun t t' => t'.status.result = t.status.result ∧ t'.sizeVal = t.sizeVal)
      (sizeStep Config.build o s) (sizeStep Config.build o' s') := by
  obtain ⟨d, w, rfl, h⟩ := h
  unfold sizeStep
  rw [readInput_same h]
  cases readInput Config.build o s with
  | error r => exact .faultLeft _ _
  | ok payload => exact .finished ⟨rfl, rfl⟩

/-- What equal inputs say byte by byte. -/
theorem inByte_of_inputAt_eq {n d d' : Nat} {s s' : State} (h : inputAt d n s = inputAt d' n s') :
    ∀ k < n, inByte d' k s' = inByte d k s := fun k hk =>
  (List.map_inj_left.1 h k (List.mem_range.2 hk)).symm

/-- Two commands accepted on inputs that read the same are alike, with no output byte written. -/
theorem started_sameView {i : Instr} {s s' : State} {o o' : OpState} (hs : Started i s o) (hs' : Started i s' o')
    (hin : opInput o s = opInput o' s') (hagain : opInputAgain o s = opInputAgain o' s') :
    ∃ d w, o' = { o with draw := d, wait := w } ∧ SameView o.n 0 o.draw d s s' := by
  obtain ⟨-, ho, hcap⟩ := hs
  obtain ⟨-, ho', -⟩ := hs'
  have hn : o'.n = o.n := by
    rw [← opInput_length o' s', ← hin, opInput_length]
  refine ⟨o'.draw, o'.wait, ?_, hcap, ?_, ?_, fun k hk => absurd hk (Nat.not_lt_zero k)⟩
  · have hlen : s'.inLen.toNat = s.inLen.toNat := by rwa [ho, ho'] at hn
    rw [ho, ho', hlen]
    rfl
  · unfold opInput at hin
    exact inByte_of_inputAt_eq (hn ▸ hin)
  · unfold opInputAgain at hagain
    exact inByte_of_inputAt_eq (hn ▸ hagain)

/-- Settles O38: the two runs of the command's internal steps keep step from their start to the completion. -/
theorem resultsDependOnTheInputOnly : Obligations.ResultsDependOnTheInputOnly := by
  intro i s s' t t' o o' hs hs' hin hagain h h'
  obtain ⟨d, w, rfl, hview⟩ := started_sameView hs hs' hin hagain
  obtain ⟨hop, hstart, -⟩ := hs
  obtain ⟨hop', -, -⟩ := hs'
  rw [exec_stepOf i hop] at h
  rw [exec_stepOf i hop'] at h'
  have hcnt : o.cnt = 0 := by rw [hstart, startOp_cnt]
  have hj : o.j = 0 := by rw [hstart, startOp_j]
  cases i with
  | encode =>
    obtain ⟨⟨hres, hout⟩, hsize⟩ := runOp_matched (encodeStep_matched o.n)
      ⟨⟨d, w, rfl, by rwa [hj]⟩, rfl, fun hne => absurd hj hne⟩ h h'
    exact ⟨hres.symm, fun _ => hout.symm, fun hc => (hsize (by simpa [oprOf] using hc)).symm⟩
  | decode =>
    obtain ⟨hres, hout⟩ := runOp_matched decodeStep_matched ⟨d, w, rfl, by rwa [hcnt]⟩ h h'
    exact ⟨hres.symm, fun _ => hout.symm, by simp [oprOf]⟩
  | size =>
    obtain ⟨hres, hsize⟩ := runOp_matched sizeStep_matched ⟨d, w, rfl, hview⟩ h h'
    exact ⟨hres.symm, by simp [oprOf], fun _ => hsize.symm⟩
  | badCommandOp0 | badCommandRsvd =>
    cases h
    cases h'
    exact ⟨rfl, by simp [oprOf], by simp [oprOf]⟩

end Sys2Proof.Proofs
end

/-! PROOFS for 20_memory.md, part 1: the host's accesses, by region of the address map. -/
section

namespace Sys2Proof.Proofs

open Sys2Proof.Machine Sys2Proof.Safety

/-! ### One rule per region and access -/

/-- A register takes no access of another width (R52). -/
theorem busRead_registers_narrow {off : Offset} (hoff : off.toNat < 0x20) {n : Width} (hn : n ≠ .w4) (s : State) :
    busRead Config.build off n s = (readErr n, s) := by
  cases n with
  | w1 | w2 => simp [busRead, regionOf_registers hoff]
  | w4 => exact absurd rfl hn

/-- No read at a misaligned offset is taken, since no register lies there (R52). -/
theorem busRead_registers_misaligned {off : Offset} (hoff : off.toNat < 0x20) (hal : off.toNat % 4 ≠ 0) (n : Width)
    (s : State) : busRead Config.build off n s = (readErr n, s) := by
  cases n <;> simp [busRead, regionOf_registers hoff, regAt_misaligned hal]

/-- A register takes no write of another width (R52). -/
theorem busWrite_registers_narrow {off : Offset} (hoff : off.toNat < 0x20) {d : BusData} (hd : ∀ v, d ≠ .b4 v)
    (s : State) : busWrite Config.build off d s = (.write .err, s) := by
  cases d with
  | b1 v | b2 v => simp [busWrite, regionOf_registers hoff]
  | b4 v => exact absurd rfl (hd v)

/-- No write at a misaligned offset is taken (R52). -/
theorem busWrite_registers_misaligned {off : Offset} (hoff : off.toNat < 0x20) (hal : off.toNat % 4 ≠ 0)
    (d : BusData) (s : State) : busWrite Config.build off d s = (.write .err, s) := by
  cases d <;> simp [busWrite, regionOf_registers hoff, regAt_misaligned hal]

section Buffers

variable {k : Nat} (hk : k < 256) (s : State)
include hk

/-- A 1-byte read of IN_BUF[k] (R53). -/
theorem busRead_inBuf : busRead Config.build (BitVec.ofNat 18 (0x10000 + k)) .w1 s =
    (.read .okay (.b1 (readInBuf k s).1), (readInBuf k s).2) := by
  simp only [busRead, regionOf_inBuf hk]

/-- A 1-byte write of IN_BUF[k] (R53). -/
theorem busWrite_inBuf (b : Byte) : busWrite Config.build (BitVec.ofNat 18 (0x10000 + k)) (.b1 b) s =
    (.write .okay, writeInBuf k b s) := by
  simp only [busWrite, regionOf_inBuf hk]

/-- IN_BUF takes no read of another width (R53). -/
theorem busRead_inBuf_wide {n : Width} (hn : n ≠ .w1) :
    busRead Config.build (BitVec.ofNat 18 (0x10000 + k)) n s = (readErr n, s) := by
  cases n with
  | w1 => exact absurd rfl hn
  | w2 | w4 => simp only [busRead, regionOf_inBuf hk]

/-- IN_BUF takes no write of another width (R53). -/
theorem busWrite_inBuf_wide {d : BusData} (hd : ∀ b, d ≠ .b1 b) :
    busWrite Config.build (BitVec.ofNat 18 (0x10000 + k)) d s = (.write .err, s) := by
  cases d with
  | b1 b => exact absurd rfl (hd b)
  | b2 v | b4 v => simp only [busWrite, regionOf_inBuf hk]

/-- A 1-byte read of OUT_BUF[k] (R54). -/
theorem busRead_outBuf : busRead Config.build (BitVec.ofNat 18 (0x20000 + k)) .w1 s =
    (.read .okay (.b1 (readOutBuf k s).1), (readOutBuf k s).2) := by
  simp only [busRead, regionOf_outBuf hk]

/-- OUT_BUF takes no read of another width (R54). -/
theorem busRead_outBuf_wide {n : Width} (hn : n ≠ .w1) :
    busRead Config.build (BitVec.ofNat 18 (0x20000 + k)) n s = (readErr n, s) := by
  cases n with
  | w1 => exact absurd rfl hn
  | w2 | w4 => simp only [busRead, regionOf_outBuf hk]

/-- OUT_BUF takes no write (R54). -/
theorem busWrite_outBuf (d : BusData) :
    busWrite Config.build (BitVec.ofNat 18 (0x20000 + k)) d s = (.write .err, s) := by
  simp only [busWrite, regionOf_outBuf hk]

end Buffers

/-- The host reads a byte of IN_BUF written since reset as it was written (R53). -/
theorem readInBuf_written {s : State} {k : Nat} {b : Byte} (h : memLookup s.mem (inBase + k) = some b) :
    readInBuf k s = (b, s) := by
  unfold readInBuf
  rw [h]

/-- The host reads a byte of IN_BUF not written since reset as a free value, with a draw (R35). -/
theorem readInBuf_unwritten {s : State} {k : Nat} (h : memLookup s.mem (inBase + k) = none) :
    readInBuf k s = (Config.freeInByte s.draws k, nextDraw s) := by
  unfold readInBuf
  rw [h]

/-- A byte not written since reset reads as the free value of the draw (R35). -/
theorem inByte_unwritten {s : State} {k : Nat} (h : memLookup s.mem (inBase + k) = none) (d : Nat) :
    inByte d k s = Config.freeInByte d k := by
  unfold inByte
  rw [h]

/-- A write that the block ignores answers OKAY and sets WERR (R57). -/
theorem busWrite_ignored {s : State} {off : Offset} {d : BusData} (h : IgnoredWrite s off d) :
    busWrite Config.build off d s = (.write .okay, setWerr s) := by
  rcases h with ⟨rfl, ⟨v, rfl⟩, hb⟩ | ⟨rfl, ⟨v, rfl⟩, hb⟩ | ⟨rfl, v, rfl, hv⟩ | ⟨⟨hlow, hhigh⟩, ⟨b, rfl⟩, hb⟩
  · rw [busWrite_register (r := .cmd) (by decide) (by decide)]
    exact congrArg _ (if_pos hb)
  · rw [inLenWrite, if_pos hb]
    rfl
  · rw [inLenWrite, if_pos hv, ite_self]
    rfl
  · obtain ⟨k, hk⟩ := Nat.exists_eq_add_of_le hlow
    rw [show off = BitVec.ofNat 18 (0x10000 + k) by rw [← hk, BitVec.ofNat_toNat, BitVec.setWidth_eq],
      busWrite_inBuf (by omega)]
    exact congrArg _ (if_pos hb)

/-- A bus write while BUSY = 1 changes WERR at most (R57). -/
theorem busWrite_busy (p : Params) (off : Offset) (d : BusData) {s : State} (hb : s.status.busy = true) :
    ∃ w, (busWrite p off d s).2 = { s with status := { s.status with werr := w } } := by
  rcases busWrite_cases p off d s with h | ⟨v, -, -, h⟩ | ⟨v, -, -, h⟩ | ⟨v, -, -, h⟩ | ⟨k, b, -, -, h⟩ <;> rw [h]
  · exact ⟨s.status.werr, rfl⟩
  · exact ⟨true, if_pos hb⟩
  · exact ⟨_, writeStatus_eq v s⟩
  · exact ⟨true, if_pos hb⟩
  · exact ⟨true, if_pos hb⟩

/-! ### The statements -/

/-- Settles O46: the access is of the wrong width, at no register, or to a register that takes no write. -/
theorem illegalRegisterAccesses : Obligations.IllegalRegisterAccesses := by
  intro s off hoff
  refine ⟨fun n hn => ?_, fun d hd => ?_⟩
  · rcases hn with hn | hal
    · exact busRead_registers_narrow hoff hn s
    · exact busRead_registers_misaligned hoff hal n s
  · rcases hd with hd | hal | rfl | rfl
    · exact busWrite_registers_narrow hoff hd s
    · exact busWrite_registers_misaligned hoff hal d s
    · exact busWrite_readOnly (r := .outLen) hoff (by decide) (fun _ => rfl) d
    · exact busWrite_readOnly (r := .sizeVal) hoff (by decide) (fun _ => rfl) d

/-- Settles O47: the host and the operations ask of a byte whether it was written since reset. -/
theorem inBufWindow : Obligations.InBufWindow := by
  intro s k hk
  refine ⟨fun b hb => ?_, fun hnone => ⟨Config.freeInByte s.draws k, ?_⟩, fun b hb o => ?_, fun hnone o => ?_,
    busWrite_inBuf hk s, fun n hn => busRead_inBuf_wide hk s hn, fun d hd => busWrite_inBuf_wide hk s hd⟩
  · rw [busRead_inBuf hk, readInBuf_written hb]
  · rw [busRead_inBuf hk, readInBuf_unwritten hnone]
    rfl
  · exact ⟨inByte_written hb _, inByte_written hb _⟩
  · exact ⟨inByte_unwritten hnone _, inByte_unwritten hnone _⟩

/-- Settles O48: the 1-byte read asks BUSY, and OUT_BUF takes no other access. -/
theorem outBufWindow : Obligations.OutBufWindow := by
  intro s k hk
  refine ⟨fun hidle => ?_, fun hbusy => ⟨Config.freeBusyByte s.draws, ?_⟩, fun n hn => busRead_outBuf_wide hk s hn,
    busWrite_outBuf hk s⟩
  · simp only [busRead_outBuf hk, readOutBuf, hidle]
    rfl
  · simp only [busRead_outBuf hk, readOutBuf, hbusy]
    rfl

/-- Settles O49: the offset lies in no region that takes an access. -/
theorem reservedOffsetsAnswerErr : Obligations.ReservedOffsetsAnswerErr := by
  intro s off hoff
  have hregion := regionOf_reserved hoff
  exact ⟨fun n => by simp only [busRead, hregion, readErr], fun d => by simp only [busWrite, hregion]⟩

/-- Settles O51: the accesses that can change more than the counter of draws answer OKAY. -/
theorem readsAndErrResponsesChangeNothing : Obligations.ReadsAndErrResponsesChangeNothing := by
  intro s off
  refine ⟨fun n => (busRead_cases Config.build off n s).1, fun n data t h => ?_, fun d t h => ?_⟩
  · rcases (busRead_cases Config.build off n s).2 with herr | ⟨d, hokay⟩
    · cases herr.symm.trans h
      exact ⟨rfl, rfl⟩
    · simp [h] at hokay
  · rcases busWrite_cases Config.build off d s with herr | ⟨_, _, _, hokay⟩ | ⟨_, _, _, hokay⟩ | ⟨_, _, _, hokay⟩ |
      ⟨_, _, _, _, hokay⟩
    · cases herr.symm.trans h
      rfl
    all_goals cases hokay.symm.trans h

/-- Settles O50: of the effects that a write can have only the ignored one sets WERR. -/
theorem ignoredWritesAndOnlyTheySetWerr : Obligations.IgnoredWritesAndOnlyTheySetWerr := by
  intro s off d
  refine ⟨busWrite_ignored, fun hnot hw => ?_⟩
  cases busWrite_effect (s := { s with hostQueue := [.write off d] }) s.hostQueue rfl with
  | reset hq => cases hq
  | ignored off' d' hq hignored =>
    cases hq
    exact absurd hignored hnot
  | werrCleared v _ _ ht => exact congrArg Status.werr ht
  | accepted v _ _ ht => exact (congrArg Status.werr ht).trans hw
  | inBufWritten off' k b _ _ _ _ ht => exact (congrArg Status.werr ht).trans hw
  | quiet ht => exact (congrArg Status.werr ht).trans hw

end Sys2Proof.Proofs
end

/-! PROOFS for 20_memory.md, part 2: which agent moves, and what the commands leave unchanged. -/
section

namespace Sys2Proof.Proofs

open Sys2Proof.Machine Sys2Proof.Safety

/-- Settles O7: the three cases are those of `step`. -/
theorem stepRunsTheAcceptedCommand : Obligations.StepRunsTheAcceptedCommand := by
  intro s
  unfold step
  refine ⟨fun hidle => by rw [hidle], fun o ho hdue => ?_, fun o w ho hleft => ?_⟩
  · simp only [ho, hdue]
  · simp only [ho, hleft]

/-- What the command `i` leaves unchanged from `s` to `t`, at each of its internal steps and as a whole (R61, R113,
R115). -/
structure CommandFrame (i : Instr) (s t : State) : Prop where
  outside : OutsideUnchanged Config.build s t
  output : oprOf i = .size ∨ oprOf i = .bad → t.mem = s.mem ∧ t.outLen = s.outLen
  sizeVal : oprOf i = .decode ∨ oprOf i = .bad → t.sizeVal = s.sizeVal

theorem CommandFrame.refl (i : Instr) (s : State) : CommandFrame i s s :=
  ⟨.refl _ s, fun _ => ⟨rfl, rfl⟩, fun _ => rfl⟩

theorem CommandFrame.trans {i : Instr} {s t u : State} (h : CommandFrame i s t) (h' : CommandFrame i t u) :
    CommandFrame i s u :=
  ⟨h.outside.trans h'.outside,
    fun hi => ⟨(h'.output hi).1.trans (h.output hi).1, (h'.output hi).2.trans (h.output hi).2⟩,
    fun hi => (h'.sizeVal hi).trans (h.sizeVal hi)⟩

/-- An internal step of ENCODE or DECODE that goes on keeps the command's frame; the other commands have none. -/
theorem stepOf_running_frame {i : Instr} {o o' : OpState} {s s' : State} (h : stepOf i o s = .running o' s') :
    CommandFrame i s s' := by
  cases i with
  | encode => exact ⟨(encodeStep_goesOn h).outside, by simp [oprOf], by simp [oprOf]⟩
  | decode =>
    obtain ⟨goesOn, hsize⟩ := decodeStep_goesOn h
    exact ⟨goesOn.outside, by simp [oprOf], fun _ => hsize⟩
  | size => rcases sizeStep_cases Config.build o s with ⟨-, he⟩ | ⟨-, he⟩ <;> cases he.symm.trans h
  | badCommandOp0 | badCommandRsvd => cases h

/-- The internal step that completes a command keeps its frame. -/
theorem stepOf_finished_frame {i : Instr} {o : OpState} {s t : State} (h : stepOf i o s = .finished t) :
    CommandFrame i s t := by
  cases i with
  | encode => exact ⟨(encodeStep_ends h).1, by simp [oprOf], by simp [oprOf]⟩
  | decode =>
    obtain ⟨c, n, -, -, rfl⟩ := decodeStep_ends h
    exact ⟨(setOutLen_outside _ n s).trans (finish_outside _ c _), by simp [oprOf], fun _ => rfl⟩
  | size =>
    rcases sizeStep_cases Config.build o s with ⟨-, he⟩ | ⟨-, he⟩ <;> cases he.symm.trans h
    exact ⟨(setSizeVal_outside _ _ s).trans (finish_outside _ _ _), fun _ => ⟨rfl, rfl⟩, by simp [oprOf]⟩
  | badCommandOp0 | badCommandRsvd =>
    cases h
    exact ⟨finish_outside _ _ s, fun _ => ⟨rfl, rfl⟩, fun _ => rfl⟩

/-- A command keeps its frame, from whatever internal state it runs. -/
theorem exec_frame {i : Instr} {s t : State} {o : OpState} (ho : s.op = some o) (h : exec i s = .next t) :
    CommandFrame i s t := by
  rw [exec_stepOf i ho] at h
  exact runOp_induction (P := fun _ u => CommandFrame i s u) (Q := CommandFrame i s)
    (fun _ _ _ _ hframe hstep => hframe.trans (stepOf_running_frame hstep))
    (fun _ _ _ hframe hstep => hframe.trans (stepOf_finished_frame hstep)) (.refl i s) h

/-- Settles O37: the frame of one internal step carries over to the whole command. -/
theorem commandsLeaveTheRestUnchanged : Obligations.CommandsLeaveTheRestUnchanged := by
  intro i s t o ho h
  obtain ⟨outside, houtput, hsize⟩ := exec_frame ho h
  exact ⟨outside.inLen, outside.werr, outside.hostQueue, outside.responses, outside.durations, outside.draws,
    outside.outDraw, outside.bytes, houtput, hsize⟩

end Sys2Proof.Proofs
end

/-! PROOFS for 20_memory.md, part 3: a running operation and the host's traffic. -/
section

namespace Sys2Proof.Proofs

open Sys2Proof.Machine Sys2Proof.Safety

/-- The completion of an operation that is put in place of the one recorded is the run of its internal steps. -/
theorem exec_withOp (o : OpState) (s : State) :
    exec o.opr { s with op := some o } = runOp (microStep Config.build) (stepBound o) o s :=
  (exec_microStep rfl).trans (runOp_op _ o s _)

/-- An internal step changes nothing that the completion of the operation leaves (R113). -/
theorem exec_after_microStep {s s' : State} {o o' : OpState} (h : microStep Config.build o s = .running o' s') :
    exec o.opr { s' with op := some o' } = exec o.opr { s with op := some o } := by
  have same := (microStep_goesOn h).same
  have fewer := microStep_stepsLeft h
  have bound := stepsLeft_le o
  calc exec o.opr { s' with op := some o' }
      = runOp (microStep Config.build) (stepBound o') o' s' := by rw [← same.opr, exec_withOp]
    _ = runOp (microStep Config.build) (o.n + 2) o' s' :=
        runOp_mono (by unfold stepBound; rw [same.n]; omega) (runOp_ends (by omega))
    _ = runOp (microStep Config.build) (stepBound o) o s := by
        unfold stepBound
        rw [runOp_succ _ (o.n + 2) o, h]
    _ = exec o.opr { s with op := some o } := (exec_withOp o s).symm

/-- The codec's work before a turn of the host leaves the same operation running, with the same number of turns
left, and its completion as it was (R113, R114). -/
theorem advance_keeps_completion (o : OpState) (s : State) :
    ∃ o', (advance Config.build o s).op = some o' ∧ o'.wait = o.wait ∧ o'.opr = o.opr ∧
      exec o.opr (advance Config.build o s) = exec o.opr { s with op := some o } := by
  unfold advance
  cases h : microStep Config.build o s with
  | running o' s' =>
    have same := (microStep_goesOn h).same
    exact ⟨o', rfl, same.wait, same.opr, exec_after_microStep h⟩
  | finished t => exact ⟨o, rfl, rfl, rfl, rfl⟩
  | fault r => exact ⟨o, rfl, rfl, rfl, rfl⟩

/-- The number of turns that are left is no part of what the completion leaves (R114, R243). -/
theorem exec_wait {s : State} {o : OpState} (ho : s.op = some o) (w : Nat) :
    exec o.opr { s with op := some { o with wait := w } } = exec o.opr s := by
  rw [exec_microStep ho, ← runOp_wait Config.build w]
  exact exec_withOp { o with wait := w } s

/-- `t` is `s` but for what no operation reads or writes: the host's queue and responses, the draws, and WERR. -/
def SameButHostSide (s t : State) : Prop := ∃ q r n w, t = withHostSide s.op q r n w s

theorem SameButHostSide.refl (s : State) : SameButHostSide s s :=
  ⟨s.hostQueue, s.responses, s.draws, s.status.werr, rfl⟩

theorem SameButHostSide.op {s t : State} (h : SameButHostSide s t) : t.op = s.op := by
  obtain ⟨q, r, n, w, rfl⟩ := h
  rfl

theorem SameButHostSide.trans {s t u : State} (h : SameButHostSide s t) (h' : SameButHostSide t u) :
    SameButHostSide s u := by
  obtain ⟨q, r, n, w, rfl⟩ := h
  obtain ⟨q', r', n', w', rfl⟩ := h'
  exact ⟨q', r', n', w', rfl⟩

/-- A completion leaves the same whatever the host's side holds, but for that side itself (R64, R66). -/
theorem exec_sameButHostSide {s s' u : State} {o : OpState} (ho : s.op = some o) (hu : exec o.opr s = .next u)
    (hs : SameButHostSide s s') : ∃ u', exec o.opr s' = .next u' ∧ SameButHostSide u u' := by
  obtain ⟨q, r, n, w, rfl⟩ := hs
  rw [exec_microStep ho] at hu
  obtain ⟨-, hnone, -⟩ := runOp_microStep_ends hu
  refine ⟨withHostSide u.op q r n w u, ?_, q, r, n, w, rfl⟩
  rw [exec_microStep (s := withHostSide s.op q r n w s) ho, runOp_hostSide, hu, hnone]

/-- A turn of the host while BUSY = 1, other than RST, changes the host's side only, and leaves no event in the
queue that was not there (R57, R60, R64). -/
theorem hostTurn_busy {s : State} (hb : s.status.busy = true) (hq : HostEvent.rst ∉ s.hostQueue) :
    SameButHostSide s (hostTurn Config.build s) ∧ HostEvent.rst ∉ (hostTurn Config.build s).hostQueue := by
  unfold hostTurn
  cases hqueue : s.hostQueue with
  | nil => exact ⟨.refl s, hq⟩
  | cons e rest =>
    have hrest : HostEvent.rst ∉ rest := fun h => hq (hqueue ▸ List.mem_cons_of_mem e h)
    cases e with
    | read off n =>
      rcases (busRead_cases Config.build off n { s with hostQueue := rest }).1 with h | h <;>
        simp only [hostEvent, respond, h] <;> exact ⟨⟨_, _, _, _, rfl⟩, hrest⟩
    | write off d =>
      obtain ⟨w, h⟩ := busWrite_busy Config.build off d (s := { s with hostQueue := rest }) hb
      simp only [hostEvent, respond, h]
      exact ⟨⟨_, _, _, _, rfl⟩, hrest⟩
    | wait | waitIdle =>
      simp only [hostEvent, poll_eq]
      exact ⟨⟨_, _, _, _, rfl⟩, by split <;> assumption⟩
    | rst => exact absurd (hqueue ▸ List.mem_cons_self) hq

/-- A step with turns left takes one of them: the same operation still runs, and its completion leaves what it would
have left before the step, but for the host's side (R64, R113). -/
theorem step_keeps_completion {s u : State} {o : OpState} {w : Nat} (hi : Invariant Config.build s)
    (ho : s.op = some o) (hw : o.wait = w + 1) (hq : HostEvent.rst ∉ s.hostQueue) (hu : exec o.opr s = .next u) :
    ∃ s' o' u', step s = .next s' ∧ s'.op = some o' ∧ o'.wait = w ∧ HostEvent.rst ∉ s'.hostQueue ∧
      exec o'.opr s' = .next u' ∧ SameButHostSide u u' := by
  obtain ⟨o', hop, hwait, hopr, hexec⟩ := advance_keeps_completion { o with wait := w } s
  obtain ⟨hout, hst⟩ := advance_outside s { o with wait := w }
  have hbusy := busy_of_op hi ho
  rw [← hst] at hbusy
  rw [← hout.hostQueue] at hq
  obtain ⟨hsame, hrest⟩ := hostTurn_busy hbusy hq
  have hadvanced : exec o'.opr (advance Config.build { o with wait := w } s) = .next u := by
    rw [hopr, hexec]
    exact (exec_wait ho w).trans hu
  obtain ⟨u', hu', huu'⟩ := exec_sameButHostSide hop hadvanced hsame
  obtain ⟨-, -, turn⟩ := stepRunsTheAcceptedCommand s
  exact ⟨_, o', u', turn o w ho hw, hsame.op.trans hop, hwait, hrest, hu', huu'⟩

/-- The induction over the turns of the host: after all of them and one step more the operation has completed, with
what its completion at the outset would have left, but for the host's side (R64, R66, R114). -/
theorem operation_completes {w : Nat} {s u : State} {o : OpState} (hi : Invariant Config.build s)
    (ho : s.op = some o) (hw : o.wait = w) (hq : HostEvent.rst ∉ s.hostQueue) (hu : exec o.opr s = .next u) :
    ∃ t, RunsTo (w + 1) s t ∧ SameButHostSide u t := by
  induction w generalizing s o u with
  | zero =>
    obtain ⟨-, due, -⟩ := stepRunsTheAcceptedCommand s
    exact ⟨u, run_succ_of_step (M := Sys2Proof.core) 0 ((due o ho hw).trans hu), .refl u⟩
  | succ w ih =>
    obtain ⟨s', o', u', hstep, ho', hw', hq', hu', huu'⟩ := step_keeps_completion hi ho hw hq hu
    obtain ⟨t, hrun, ht⟩ := ih (everyStepKeepsTheInvariant s s' hi hstep) ho' hw' hq' hu'
    exact ⟨t, (run_succ_of_step (M := Sys2Proof.core) (w + 1) hstep).trans hrun, huu'.trans ht⟩

/-- Settles O40: the run leaves what `exec` at the outset leaves but for the host's side, and that is a completion. -/
theorem hostTrafficCannotChangeARunningOperation : Obligations.HostTrafficCannotChangeARunningOperation := by
  intro s o hi ho hq
  obtain ⟨u, hu, -⟩ := exec_completes hi ho
  obtain ⟨t, hrun, q, r, n, w, rfl⟩ := operation_completes hi ho rfl hq hu
  have hends := hu
  rw [exec_microStep ho] at hends
  obtain ⟨-, hnone, c, hc, hst⟩ := runOp_microStep_ends hends
  have hdone : u.status.done = true := by rw [hst, finishStatus_done]
  have hidle : u.status.busy = false := by rw [hst, finishStatus_busy]
  have hresult : u.status.result ≠ .none := by rwa [hst, finishStatus_result]
  exact ⟨_, u, hrun, hu, hnone, hdone, hidle, rfl, hresult, rfl, rfl, rfl, rfl⟩

end Sys2Proof.Proofs
end

/-! PROOFS for 30_encoding.md, part 1: the command word, decoded and encoded. -/
section

namespace Sys2Proof.Proofs

open Sys2Proof.Machine Sys2Proof.Laws.IllegalWord

/-- The field RSVD of a word put together from its two fields (R81). -/
@[simp] theorem cmdRsvd_cmdWord (rsvd : BitVec 30) (op : BitVec 2) : cmdRsvd (cmdWord rsvd op) = rsvd :=
  rsvd_of_cmdWord rsvd op

/-- The field OP of a word put together from its two fields (R81). -/
@[simp] theorem cmdOp_cmdWord (rsvd : BitVec 30) (op : BitVec 2) : cmdOp (cmdWord rsvd op) = op :=
  BitVec.extractLsb'_append_eq_right

/-- The two fields are the whole word (R81). -/
@[simp] theorem cmdWord_fields (v : Word) : cmdWord (cmdRsvd v) (cmdOp v) = v :=
  BitVec.extractLsb'_append_extractLsb'

/-- The row BAD_COMMAND_RSVD is decoded before OP is looked at (R82). -/
theorem decodeCmd_reserved {v : Word} (h : cmdRsvd v ≠ 0) : decodeCmd v = .badCommandRsvd (cmdRsvd v) (cmdOp v) :=
  if_pos h

/-- The rows of the table cover all words (R82): with RSVD = 0 the four values of OP have a row each. -/
theorem exists_wellFormed_of_word (v : Word) : ∃ i, wellFormed i = true ∧ encodeCmd i = v := by
  rw [← cmdWord_fields v]
  by_cases hr : cmdRsvd v = 0
  · rw [hr]
    have hop : cmdOp v = 0 ∨ cmdOp v = 1 ∨ cmdOp v = 2 ∨ cmdOp v = 3 := by
      generalize cmdOp v = op
      decide +revert
    rcases hop with h | h | h | h <;> rw [h]
    · exact ⟨.badCommandOp0, rfl, rfl⟩
    · exact ⟨.encode, rfl, rfl⟩
    · exact ⟨.decode, rfl, rfl⟩
    · exact ⟨.size, rfl, rfl⟩
  · exact ⟨.badCommandRsvd (cmdRsvd v) (cmdOp v), bne_iff_ne.mpr hr, rfl⟩

/-- Settles O3: four rows are one word each, and the words of the fifth keep both of its fields. -/
theorem decodingAnEncodedCommandGivesItBack : Obligations.DecodingAnEncodedCommandGivesItBack := by
  intro i hi
  cases i with
  | encode => decide
  | decode => decide
  | size => decide
  | badCommandOp0 => decide
  | badCommandRsvd rsvd op =>
    have hr : rsvd ≠ 0 := bne_iff_ne.mp hi
    rw [encodeCmd, decodeCmd_reserved (by rwa [cmdRsvd_cmdWord]), cmdRsvd_cmdWord, cmdOp_cmdWord]

/-- Settles O4: the word is the encoding of some well-formed command, and that is the one decoded. -/
theorem encodingADecodedWordGivesItBack : Obligations.EncodingADecodedWordGivesItBack := by
  intro v
  obtain ⟨i, hi, rfl⟩ := exists_wellFormed_of_word v
  rw [decodingAnEncodedCommandGivesItBack i hi]
  exact ⟨hi, rfl⟩

/-- Decoding and encoding are inverse to each other on the well-formed commands. -/
theorem decodeCmd_eq_iff {i : Instr} (hi : wellFormed i = true) (v : Word) : decodeCmd v = i ↔ v = encodeCmd i := by
  constructor
  · rintro rfl
    exact (encodingADecodedWordGivesItBack v).2.symm
  · rintro rfl
    exact decodingAnEncodedCommandGivesItBack i hi

/-- Each operation other than BAD is that of one command only (R80). -/
theorem oprOf_eq_iff (i : Instr) : (oprOf i = .encode ↔ i = .encode) ∧ (oprOf i = .decode ↔ i = .decode) ∧
    (oprOf i = .size ↔ i = .size) := by
  cases i <;> simp [oprOf]

/-- A well-formed command is BAD exactly when its word has reserved bits, or OP = 0 (R82). -/
theorem oprOf_eq_bad {i : Instr} (hi : wellFormed i = true) :
    oprOf i = .bad ↔ cmdRsvd (encodeCmd i) ≠ 0 ∨ cmdOp (encodeCmd i) = 0b00 := by
  cases i with
  | badCommandRsvd rsvd op =>
    have hr : rsvd ≠ 0 := bne_iff_ne.mp hi
    exact iff_of_true rfl (.inl (by rwa [encodeCmd, cmdRsvd_cmdWord]))
  | _ => decide

/-- Settles O2: the command of an operation other than BAD is one only, so its word is one only. -/
theorem everyWordHasItsOperation : Obligations.EveryWordHasItsOperation := by
  intro v
  obtain ⟨hwf, hword⟩ := encodingADecodedWordGivesItBack v
  obtain ⟨hencode, hdecode, hsize⟩ := oprOf_eq_iff (decodeCmd v)
  have hbad := oprOf_eq_bad hwf
  rw [hword] at hbad
  exact ⟨hencode.trans (decodeCmd_eq_iff rfl v), hdecode.trans (decodeCmd_eq_iff rfl v),
    hsize.trans (decodeCmd_eq_iff rfl v), hbad⟩

/-- Settles O1: each word is the encoding of the command it decodes to. -/
theorem commandWordsOfTheTable : Obligations.CommandWordsOfTheTable := by
  have decodes := decodingAnEncodedCommandGivesItBack
  exact ⟨decodes .encode rfl, decodes .decode rfl, decodes .size rfl, decodes .badCommandOp0 rfl,
    decodes (.badCommandRsvd 1 1) rfl, decodes (.badCommandRsvd 0x20000000 1) rfl,
    decodes (.badCommandRsvd 0x3FFFFFFF 3) rfl⟩

end Sys2Proof.Proofs
end

/-! PROOFS for 30_encoding.md, part 2: the STATUS word, and the waits that read it. -/
section

namespace Sys2Proof.Proofs

open Sys2Proof.Machine

section Layout

variable (st : Status)

/-- The four one-bit fields (R86). -/
theorem statusWord_flags :
    (statusWord st).getLsbD 0 = st.busy ∧ (statusWord st).getLsbD 1 = st.done ∧
    (statusWord st).getLsbD 2 = st.werr ∧ (statusWord st).getLsbD 3 = false := by
  simp only [statusWord, BitVec.getLsbD_setWidth, BitVec.getLsbD_append]
  simp

/-- RESULT is above the four one-bit fields. -/
theorem statusWord_result : (statusWord st).extractLsb' 4 4 = resultNumber st.result := by
  rw [statusWord, BitVec.extractLsb'_setWidth_of_le (by decide)]
  iterate 4 rw [BitVec.extractLsb'_append_eq_of_le (by decide)]
  exact BitVec.extractLsb'_eq_self

/-- Beyond the eight bits of the fields stands the zero extension. -/
theorem statusWord_high : (statusWord st).extractLsb' 8 24 = 0 := by
  apply BitVec.eq_of_getLsbD_eq
  intro k hk
  simp only [statusWord, BitVec.getLsbD_extractLsb', BitVec.getLsbD_setWidth]
  rw [BitVec.getLsbD_of_ge _ (8 + k) (by omega)]
  simp

/-- The STATUS word as a number: each field has its weight (R86). -/
theorem statusWord_toNat : (statusWord st).toNat =
    16 * (resultNumber st.result).toNat + 4 * st.werr.toNat + 2 * st.done.toNat + st.busy.toNat := by
  rw [statusWord, BitVec.toNat_setWidth_of_le (by decide)]
  simp only [BitVec.toNat_append, ← Nat.shiftLeft_add_eq_or_of_lt (BitVec.isLt _)]
  simp only [BitVec.toNat_ofBool, BitVec.toNat_ofNat]
  omega

/-- Setting WERR adds its weight 4, whatever the other fields hold: the sum stays in the word (R86). -/
theorem statusWord_of_werr (h : st.werr = true) :
    statusWord st = statusWord { st with werr := false } + 0x00000004 := by
  have hlt := (statusWord st).isLt
  apply BitVec.eq_of_toNat_eq
  simp only [BitVec.toNat_add, BitVec.ofNat_eq_ofNat, BitVec.toNat_ofNat, statusWord_toNat, h, Bool.toNat_true,
    Bool.toNat_false] at hlt ⊢
  omega

/-- Acceptance fixes every field of STATUS but WERR (R110). -/
theorem acceptStatus_eq (h : st.werr = false) : acceptStatus st = ⟨true, false, false, .none⟩ := by
  simp [acceptStatus, h]

/-- A completion fixes every field of STATUS but WERR (R115). -/
theorem finishStatus_eq (h : st.werr = false) (c : ResultCode) : finishStatus c st = ⟨false, true, false, c⟩ := by
  simp [finishStatus, h]

end Layout

/-- Settles O43: the layout field by field; with WERR = 0 the situation alone fixes the word. -/
theorem statusWordLayout : Obligations.StatusWordLayout := by
  refine ⟨fun st => ?_, by decide, fun st h => ?_, statusWord_of_werr⟩
  · obtain ⟨hbusy, hdone, hwerr, hzero⟩ := statusWord_flags st
    exact ⟨hbusy, hdone, hwerr, hzero, statusWord_result st, statusWord_high st⟩
  · simp only [acceptStatus_eq st h, finishStatus_eq st h]
    decide

/-- The platform's turn is the event at the head of the queue. -/
theorem hostTurn_cons {s : State} {e : HostEvent} {rest : List HostEvent} (hq : s.hostQueue = e :: rest) (p : Params) :
    hostTurn p s = hostEvent p e rest s := by
  rw [hostTurn, hq]

/-- Settles O10: a turn of either loop is `poll`, and the loop ends by the bit of the word that it reads. -/
theorem waitsPollStatus : Obligations.WaitsPollStatus := by
  refine ⟨fun s rest hq => ?_, fun s rest hq => ?_⟩ <;> obtain ⟨hbusy, hdone, -⟩ := statusWord_flags s.status
  · have hturn : hostTurn Config.build s = poll Config.build s.status.done rest s := hostTurn_cons hq _
    rw [hturn, poll_eq, hdone]
  · have hturn : hostTurn Config.build s = poll Config.build (!s.status.busy) rest s := hostTurn_cons hq _
    rw [hturn, poll_eq, hbusy]
    cases s.status.busy <;> rfl

end Sys2Proof.Proofs
end

/-! PROOFS for 40_command.md: acceptance, BAD_COMMAND, and the internal steps between acceptance and completion. -/
section

namespace Sys2Proof.Proofs

open Sys2Proof.Machine Sys2Proof.Safety

/-- Settles O39: an internal step leaves the completion of the operation that is recorded. -/
theorem internalProgressIsInvisible : Obligations.InternalProgressIsInvisible := by
  intro s s' o o' ho h
  have recorded : { s with op := some o } = s := by rw [← ho]
  rw [exec_after_microStep h, recorded]

/-! ### The write to CMD -/

/-- A write to CMD while BUSY = 0 is the acceptance of the command that the word decodes to (R110). -/
theorem busWrite_cmd_idle {s : State} (hidle : s.status.busy = false) (v : Word) :
    busWrite Config.build 0x00000 (.b4 v) s = (.write .okay, acceptCommand (decodeCmd v) s) := by
  rw [busWrite_register (r := .cmd) (by decide) (by decide), writeReg, writeCmd, hidle]
  rfl

/-- The step of a state whose running operation has no turns left is its completion (R114). -/
theorem step_due {s : State} {o : OpState} (ho : s.op = some o) (hdue : o.wait = 0) : step s = exec o.opr s := by
  obtain ⟨-, due, -⟩ := stepRunsTheAcceptedCommand s
  exact due o ho hdue

/-- Settles O5: the state after the write is `acceptCommand`, whose operation is due where the duration is 0. -/
theorem acceptanceOfACommand : Obligations.AcceptanceOfACommand := by
  intro s v hidle
  exact ⟨acceptCommand (decodeCmd v) s, busWrite_cmd_idle hidle v, rfl, fun hzero =>
    step_due (acceptCommand_op (decodeCmd v) s) hzero⟩

/-- Settles O6: the write is one of the four that the block ignores. -/
theorem commandWrittenWhileBusyIsIgnored : Obligations.CommandWrittenWhileBusyIsIgnored := by
  intro s v hbusy
  exact busWrite_ignored (.inl ⟨rfl, ⟨v, rfl⟩, hbusy⟩)

/-! ### The command of a table word, and of an idle block -/

/-- A row of the table that decodes has the command of its word (R82). -/
theorem decodeTableWord_some {nbits w : Nat} {i : Instr} (h : decodeTableWord nbits w = some i) :
    decodeCmd (tableWord nbits w) = i := by
  unfold decodeTableWord at h
  split at h
  · exact Option.some.inj h
  · cases h

/-- Settles O8: `withFetchWord` is the acceptance of the decoded command with no turns left. -/
theorem stepRunsTheFetchedWord : Obligations.StepRunsTheFetchedWord := by
  intro s nbits w i h
  cases decodeTableWord_some h
  exact ⟨rfl, rfl, rfl, step_due (s := s.withFetchWord nbits w) rfl rfl⟩

/-- Where no operation runs, a meaning runs the internal steps of the operation that acceptance starts. -/
theorem exec_idle (i : Instr) {s : State} (hidle : s.op = none) :
    exec i s = runOp (stepOf i) (stepBound (acceptedOp i s)) (acceptedOp i s) (acceptCommand i s) := by
  cases i <;> exact runCommand_none hidle

/-- Settles O9: both sides run the accepted operation from the state that acceptance leaves. -/
theorem execOnAnIdleBlockAcceptsFirst : Obligations.ExecOnAnIdleBlockAcceptsFirst := by
  intro i s hidle
  rw [exec_idle i hidle, exec_stepOf i (acceptCommand_op i s)]

/-! ### BAD_COMMAND -/

/-- The one internal step of both BAD rows, whatever their fields (R116). -/
theorem stepOf_bad {i : Instr} (hi : oprOf i = .bad) : stepOf i = badStep := by
  cases i with
  | badCommandOp0 | badCommandRsvd => rfl
  | encode | decode | size => cases hi

/-- BAD completes in its first internal step, with BAD_COMMAND (R116). -/
theorem exec_bad {i : Instr} {s : State} {o : OpState} (hi : oprOf i = .bad) (ho : s.op = some o) :
    exec i s = .next (finish .badCommand s) := by
  rw [exec_stepOf i ho, stepOf_bad hi]
  rfl

/-- Settles O11: the completion is `finish`, and while BUSY = 1 a BAD word is ignored as every word is. -/
theorem badCommandCompletes : Obligations.BadCommandCompletes :=
  ⟨fun _ _ _ hi ho => exec_bad hi ho, fun v s _ hbusy => commandWrittenWhileBusyIsIgnored s v hbusy⟩

end Sys2Proof.Proofs
end

/-! PROOFS for 41_encode.md, part 1: the laws of a frame. -/
section

namespace Sys2Proof.Proofs

open Sys2Proof.Machine

/-! ### The grammar -/

/-- The body element that stands for a payload byte (R88, R90). -/
def bodyElemOf (p : Params) (b : Byte) : BodyElem :=
  match codeOf p b with
  | some c => .escaped c
  | none => .literal b

/-- The bytes of the element are the wire form of the byte (R91). -/
theorem bodyElemBytes_bodyElemOf (p : Params) (b : Byte) : bodyElemBytes p (bodyElemOf p b) = wireForm p b := by
  unfold bodyElemOf wireForm
  cases codeOf p b <;> rfl

/-- An escape code is one of the three codes (R8). -/
theorem codeOf_range {p : Params} {b c : Byte} (h : codeOf p b = some c) :
    c = p.codeStart ∨ c = p.codeEscape ∨ c = p.codeEnd := by
  unfold codeOf at h
  split at h
  · exact .inl (Option.some.inj h).symm
  · split at h
    · exact .inr (.inr (Option.some.inj h).symm)
    · split at h
      · exact .inr (.inl (Option.some.inj h).symm)
      · cases h

/-- The grammar allows the element: a byte without a code is literal (R88). -/
theorem bodyElemLegal_bodyElemOf (p : Params) (b : Byte) : bodyElemLegal p (bodyElemOf p b) = true := by
  have hreserved := codeOf_isSome p b
  unfold bodyElemOf
  cases hc : codeOf p b with
  | some c => simpa [bodyElemLegal, or_assoc] using codeOf_range hc
  | none => simpa [bodyElemLegal, hc] using hreserved

/-- The frame of a payload is generated by the grammar (R137). -/
theorem isFrame_frame (p : Params) (payload : List Byte) : IsFrame p (frame p payload) := by
  refine ⟨payload.map (bodyElemOf p), ?_, ?_⟩
  · simpa using fun b _ => bodyElemLegal_bodyElemOf p b
  · simp only [frame, List.flatMap_map, bodyElemBytes_bodyElemOf]

/-! ### Where the reserved bytes stand -/

section Positions

variable {p : Params} (hp : p.Legal)
include hp

/-- No escape code is a reserved byte (R9). -/
theorem code_not_reserved {b c : Byte} (h : codeOf p b = some c) : isReserved p c = false := by
  by_contra hc
  have hnone := reservedOf_eq_none hp (Bool.eq_true_of_not_eq_false hc)
  rw [reservedOf_codeOf hp h] at hnone
  cases hnone

/-- The only reserved byte in a wire form is ESCAPE (R90). -/
theorem eq_escape_of_mem_wireForm {b x : Byte} (hx : x ∈ wireForm p b) (hr : isReserved p x = true) :
    x = p.escapeByte := by
  by_cases hb : isReserved p b = true
  · obtain ⟨c, hc, hw⟩ := wireForm_reserved hb
    have hcode := code_not_reserved hp hc
    rw [hw] at hx
    rcases List.mem_pair.mp hx with rfl | rfl
    · rfl
    · exact absurd hr (by simp [hcode])
  · rw [wireForm_literal (by simpa using hb), List.mem_singleton] at hx
    exact absurd (hx ▸ hr) hb

/-- In the wire forms of a payload a code follows every ESCAPE (R135 item 7). -/
theorem code_after_escape (payload : List Byte) {k : Nat}
    (h : (payload.flatMap (wireForm p))[k]? = some p.escapeByte) :
    ∃ c, (payload.flatMap (wireForm p))[k + 1]? = some c ∧ (reservedOf p c).isSome = true := by
  have hescape : isReserved p p.escapeByte = true := by simp [isReserved]
  induction payload generalizing k with
  | nil => simp at h
  | cons b payload ih =>
    rw [List.flatMap_cons] at h ⊢
    by_cases hb : isReserved p b = true
    · obtain ⟨c, hc, hw⟩ := wireForm_reserved hb
      rw [hw] at h ⊢
      match k with
      | 0 => exact ⟨c, rfl, by rw [reservedOf_codeOf hp hc]; rfl⟩
      | 1 =>
        obtain rfl : c = p.escapeByte := by simpa using h
        simp [code_not_reserved hp hc] at hescape
      | k + 2 => exact ih h
    · rw [wireForm_literal (by simpa using hb)] at h ⊢
      match k with
      | 0 =>
        obtain rfl : b = p.escapeByte := by simpa using h
        exact absurd hescape hb
      | k + 1 => exact ih h

end Positions

/-- A byte of a frame is START at the first index, END at the last, or a byte of the wire forms between them. -/
theorem frame_getElem?_cases {p : Params} {payload : List Byte} {k : Nat} {x : Byte}
    (h : (frame p payload)[k]? = some x) :
    (k = 0 ∧ x = p.startByte) ∨ (k + 1 = (frame p payload).length ∧ x = p.endByte) ∨
    ∃ i, k = i + 1 ∧ (payload.flatMap (wireForm p))[i]? = some x := by
  cases k with
  | zero => exact .inl ⟨rfl, by simpa [frame] using h.symm⟩
  | succ i =>
    have hi : (payload.flatMap (wireForm p) ++ [p.endByte])[i]? = some x := h
    rw [List.getElem?_append] at hi
    split at hi
    · exact .inr (.inr ⟨i, rfl, hi⟩)
    · obtain ⟨hlen, hx⟩ := List.getElem?_eq_some_iff.mp hi
      refine .inr (.inl ⟨?_, by simpa using hx.symm⟩)
      simp only [frame, List.cons_append, List.length_cons, List.length_append, List.length_nil] at hlen ⊢
      omega

/-- A byte of the wire forms is one of the frame, one index further. -/
theorem frame_getElem?_succ {p : Params} {payload : List Byte} {i : Nat} {x : Byte}
    (h : (payload.flatMap (wireForm p))[i]? = some x) : (frame p payload)[i + 1]? = some x :=
  (List.getElem?_append_left (List.getElem?_eq_some_iff.mp h).1).trans h

/-- Settles O19: of the reserved bytes only ESCAPE stands between the two ends, and there a code follows it. -/
theorem sentinelsStandOnlyAtTheEndsOfAFrame : Obligations.SentinelsStandOnlyAtTheEndsOfAFrame := by
  intro p payload k hp
  obtain ⟨hse, hsx, hex⟩ := reserved_distinct hp
  have between {x : Byte} {i : Nat} (hr : isReserved p x = true)
      (h : (payload.flatMap (wireForm p))[i]? = some x) : x = p.escapeByte := by
    obtain ⟨b, -, hx⟩ := List.mem_flatMap.mp (List.mem_of_getElem? h)
    exact eq_escape_of_mem_wireForm hp hx hr
  refine ⟨fun h => ?_, fun h => ?_, fun h => ?_⟩ <;>
    rcases frame_getElem?_cases h with ⟨hk, hx⟩ | ⟨hk, hx⟩ | ⟨i, rfl, hi⟩
  · exact hk
  · exact absurd hx hse
  · exact absurd (between (by simp [isReserved]) hi) hsx
  · exact absurd hx.symm hse
  · exact hk
  · exact absurd (between (by simp [isReserved]) hi) hex
  · exact absurd hx.symm hsx
  · exact absurd hx.symm hex
  · obtain ⟨c, hc, hcode⟩ := code_after_escape hp payload hi
    exact ⟨c, frame_getElem?_succ hc, hcode⟩

end Sys2Proof.Proofs
end

/-! PROOFS for 41_encode.md, part 2: the loop of ENCODE, and what the whole command leaves. -/
section

namespace Sys2Proof.Proofs

open Sys2Proof.Machine Sys2Proof.Safety

/-! ### The loop -/

/-- What ENCODE has still to emit after START: the wire forms of the payload bytes from index k on, and END
(R131). -/
def encodeRest (o : OpState) (s : State) : List Byte :=
  ((encodedInput Config.build o s).drop o.k).flatMap (wireForm Config.build) ++ [Config.build.endByte]

/-- What the codec does leaves every read of IN_BUF as it was (R61, R64). -/
theorem inByte_outside {s t : State} (h : OutsideUnchanged Config.build s t) {k : Nat} (hk : k < 256) (d : Nat) :
    inByte d k t = inByte d k s := by
  unfold inByte
  rw [show memLookup t.mem (inBase + k) = memLookup s.mem (inBase + k) from inBuf_outside h hk]

/-- An internal step of ENCODE that goes on does not change what is encoded. -/
theorem encodedInput_goesOn {s s' : State} {o o' : OpState} (h : encodeStep Config.build o s = .running o' s')
    (hn : o.n ≤ Config.build.inCap) : encodedInput Config.build o' s' = encodedInput Config.build o s := by
  obtain ⟨same, outside, -⟩ := encodeStep_goesOn h
  unfold encodedInput
  rw [same.n]
  refine List.map_congr_left fun k hk => ?_
  have hk' : k < 256 := Nat.lt_of_lt_of_le (List.mem_range.mp hk) hn
  simp only [encodedByte, againByte, same.draw, inByte_outside outside hk']

/-- With a byte left, its wire form comes first. -/
theorem encodeRest_of_lt {o : OpState} {s : State} (hk : o.k < o.n) :
    encodeRest o s = wireForm Config.build (encodedByte Config.build o o.k s) ++
      encodeRest { o with k := o.k + 1 } s := by
  unfold encodeRest
  rw [List.drop_eq_getElem?_toList_append, encodedInput_getElem? Config.build o s hk]
  simp only [Option.toList_some, List.singleton_append, List.flatMap_cons, List.append_assoc]
  rfl

/-- After the last byte only END is left. -/
theorem encodeRest_of_le {o : OpState} {s : State} (hk : o.n ≤ o.k) : encodeRest o s = [Config.build.endByte] := by
  rw [encodeRest, List.drop_eq_nil_of_le (by simpa using hk)]
  rfl

/-- The loop body of ENCODE emits the wire form `w` of its byte where that fits (R131, R132). -/
theorem encodeStep_emits {o : OpState} {s : State} {w : List Byte} (hj : o.j ≠ 0) (hk : o.k < o.n)
    (hn : o.n ≤ Config.build.inCap) (hw : wireForm Config.build (encodedByte Config.build o o.k s) = w)
    (hfit : o.j + w.length ≤ Config.build.outCap) :
    encodeStep Config.build o s = .running { o with k := o.k + 1, j := o.j + w.length }
      { s with mem := memWriteList s.mem (outBase + o.j) w } := by
  unfold encodedByte at hw
  rw [encodeStep, if_neg hj, if_pos hk, encodeByte, readAgain_eq hk hn]
  dsimp only
  rw [hw, emitAll_eq w hfit]

/-- The steps of ENCODE after the loop emit END where that fits, and complete (R131). -/
theorem encodeStep_completes {o : OpState} {s : State} (hj : o.j ≠ 0) (hk : o.n ≤ o.k)
    (hfit : o.j < Config.build.outCap) :
    encodeStep Config.build o s =
      .finished (finish .ok (setOutLen (o.j + 1) (writeOut o.j Config.build.endByte s))) := by
  rw [encodeStep, if_neg hj, if_neg (by omega), encodeEnd, emit, if_pos hfit]

/-- The loop of ENCODE and the steps after it, from any internal state after START: what is left is emitted, and the
operation completes with OK (R131, R132). -/
theorem runOp_encode_loop {fuel : Nat} {o : OpState} {s : State} (hj : o.j ≠ 0) (hn : o.n ≤ Config.build.inCap)
    (hfuel : o.n - o.k < fuel) (hfit : o.j + (encodeRest o s).length ≤ Config.build.outCap) :
    runOp (encodeStep Config.build) fuel o s =
      .next (finish .ok (setOutLen (o.j + (encodeRest o s).length)
        { s with mem := memWriteList s.mem (outBase + o.j) (encodeRest o s) })) := by
  induction fuel generalizing o s with
  | zero => omega
  | succ fuel ih =>
    rw [runOp_succ]
    by_cases hk : o.k < o.n
    · obtain ⟨w, hw⟩ : ∃ w, wireForm Config.build (encodedByte Config.build o o.k s) = w := ⟨_, rfl⟩
      have hrest := encodeRest_of_lt (s := s) hk
      rw [hw] at hrest
      rw [hrest, List.length_append] at hfit
      have hstep := encodeStep_emits hj hk hn hw (by omega)
      have hnext : encodeRest { o with k := o.k + 1, j := o.j + w.length }
          { s with mem := memWriteList s.mem (outBase + o.j) w } = encodeRest { o with k := o.k + 1 } s := by
        unfold encodeRest
        rw [encodedInput_goesOn hstep hn]
        rfl
      have hrun := ih (o := { o with k := o.k + 1, j := o.j + w.length })
        (s := { s with mem := memWriteList s.mem (outBase + o.j) w })
        (by dsimp only; omega) hn (by dsimp only; omega) (by rw [hnext]; dsimp only; omega)
      rw [hstep, hrest, List.length_append, memWriteList_append, ← Nat.add_assoc, Nat.add_assoc outBase]
      rw [hnext] at hrun
      exact hrun
    · rw [encodeRest_of_le (by omega)] at hfit ⊢
      rw [encodeStep_completes hj (by omega) (by simpa using hfit)]
      rfl

/-! ### The whole command -/

/-- What an ENCODE with result OK leaves (R131). -/
def encoded (o : OpState) (s : State) : State :=
  finish .ok (setOutLen (encSize Config.build (opInput o s)) (setSizeVal (encSize Config.build (opInput o s))
    { s with mem := memWriteList s.mem outBase (frame Config.build (encodedInput Config.build o s)) }))

/-- The block after the internal step that emits START (R131). -/
def startEmitted (o : OpState) (s : State) : State :=
  writeOut 0 Config.build.startByte (setSizeVal (encSize Config.build (opInput o s)) s)

/-- Where the frame fits, the internal step that emits START and the loop write the whole frame (R131). -/
theorem runOp_encode_fits {o : OpState} {s : State} (hk : o.k = 0) (hn : o.n ≤ Config.build.inCap)
    (hfit : encSize Config.build (opInput o s) ≤ Config.build.outCap)
    (hstep : encodeStep Config.build o s = .running { o with j := 1 } (startEmitted o s)) :
    runOp (encodeStep Config.build) (stepBound o) o s = .next (encoded o s) := by
  have hframe : Config.build.startByte :: encodeRest { o with j := 1 } (startEmitted o s) =
      frame Config.build (encodedInput Config.build o s) := by
    rw [encodeRest, encodedInput_goesOn hstep hn, hk]
    rfl
  have hlen : 1 + (encodeRest { o with j := 1 } (startEmitted o s)).length =
      encSize Config.build (opInput o s) := by
    rw [← encSize_encodedInput, ← frame_length, ← hframe, List.length_cons, Nat.add_comm]
  have hloop := runOp_encode_loop (fuel := o.n + 2) (o := { o with j := 1 }) (s := startEmitted o s) (by simp) hn
    (by dsimp only; omega) (by rw [hlen]; exact hfit)
  rw [stepBound, runOp_succ, hstep]
  dsimp only
  rw [hloop, hlen, encoded, ← hframe]
  rfl

/-- The three ways in which ENCODE completes (R131, R134, R136). -/
theorem exec_encode_cases {s : State} {o : OpState} (h : Started .encode s o) :
    (o.n = 0 ∧ exec .encode s = .next (finish .emptyInput (setOutLen 0 s))) ∨
    (1 ≤ o.n ∧ Config.build.outCap < encSize Config.build (opInput o s) ∧ exec .encode s =
      .next (finish .overflow (setOutLen 0 (setSizeVal (encSize Config.build (opInput o s)) s)))) ∨
    (1 ≤ o.n ∧ encSize Config.build (opInput o s) ≤ Config.build.outCap ∧
      exec .encode s = .next (encoded o s)) := by
  obtain ⟨hop, hstart, hn⟩ := h
  have hj : o.j = 0 := by rw [hstart, startOp_j]
  have hk : o.k = 0 := by rw [hstart, startOp_k]
  rw [exec_stepOf .encode hop, stepOf]
  rcases encodeBegin_cases Config.build o s hj with ⟨h0, hstep⟩ | ⟨-, hcap, -⟩ | ⟨h1, -, hover, hstep⟩ |
    ⟨h1, -, hfit, hstep⟩
  · exact .inl ⟨h0, by rw [stepBound, runOp_succ, hstep]⟩
  · omega
  · exact .inr (.inl ⟨h1, hover, by rw [stepBound, runOp_succ, hstep]⟩)
  · exact .inr (.inr ⟨h1, hfit, runOp_encode_fits hk hn hfit hstep⟩)

/-- Settles O16: each of the three completions is that of its case. -/
theorem encodeCompletes : Obligations.EncodeCompletes := by
  intro s o h
  refine ⟨fun h0 => ?_, fun h1 hover => ?_, fun h1 hfit => ?_, fun x hx => ?_⟩
  · rcases exec_encode_cases h with ⟨-, he⟩ | ⟨h1, -⟩ | ⟨h1, -⟩
    · exact he
    · omega
    · omega
  · rcases exec_encode_cases h with ⟨h0, -⟩ | ⟨-, -, he⟩ | ⟨-, hfit, -⟩
    · omega
    · exact he
    · omega
  · rcases exec_encode_cases h with ⟨h0, -⟩ | ⟨-, hover, -⟩ | ⟨-, -, he⟩
    · omega
    · omega
    · exact he
  · obtain ⟨hfirst, hagain⟩ := hx
    rw [encodedInput_eq (hagain.trans hfirst.symm), hfirst]

/-! ### Overflow -/

/-- EncSize counts the two sentinels, every payload byte, and the reserved ones once more (R181). -/
theorem encSize_eq_length_add_reservedCount (p : Params) (payload : List Byte) :
    encSize p payload = 2 + payload.length + reservedCount p payload := by
  induction payload with
  | nil => rfl
  | cons b payload ih =>
    simp only [encSize, reservedCount, List.map_cons, List.sum_cons, List.length_cons, List.countP_cons,
      wireWeight] at ih ⊢
    split <;> omega

/-- Settles O20: the capacity is compared with EncSize, which has 2 for the sentinels. -/
theorem encodeOverflowsExactlyBeyondCapacity : Obligations.EncodeOverflowsExactlyBeyondCapacity := by
  intro s o h hn
  have hsize := encSize_eq_length_add_reservedCount Config.build (opInput o s)
  rw [opInput_length] at hsize
  rcases exec_encode_cases h with ⟨h0, -⟩ | ⟨-, hover, he⟩ | ⟨-, hfit, he⟩
  · omega
  · rw [outCap_eq] at hover
    exact ⟨_, he, iff_of_true rfl (by omega), iff_of_false (by simp) (by omega)⟩
  · rw [outCap_eq] at hfit
    exact ⟨_, he, iff_of_false (by simp [encoded]) (by omega), iff_of_true rfl (by omega)⟩

/-! ### The output -/

/-- An ENCODE whose result is OK is the one whose frame fits. -/
theorem exec_encode_ok {s t : State} {o : OpState} (h : Started .encode s o) (he : exec .encode s = .next t)
    (hok : t.status.result = .ok) :
    encSize Config.build (opInput o s) ≤ Config.build.outCap ∧ t = encoded o s := by
  rcases exec_encode_cases h with ⟨-, he'⟩ | ⟨-, -, he'⟩ | ⟨-, hfit, he'⟩ <;> cases he.symm.trans he'
  · cases hok
  · cases hok
  · exact ⟨hfit, rfl⟩

/-- The bytes of OUT_BUF after a list was written to it from index 0 on. -/
theorem outByte_written {s t : State} {bs : List Byte} (hmem : t.mem = memWriteList s.mem outBase bs)
    (hdraw : t.outDraw = s.outDraw) (k : Nat) : outByte k t = bs[k]?.getD (outByte k s) := by
  unfold outByte
  rw [hmem, hdraw, memLookup_memWriteList]
  by_cases hk : k < bs.length
  · rw [if_pos (by omega), Nat.add_sub_cancel_left, List.getElem?_eq_getElem hk]
    rfl
  · rw [if_neg (by omega), List.getElem?_eq_none (by omega)]
    rfl

/-- With OUT_LEN the length of a list written to OUT_BUF, the output is that list. -/
theorem output_written {s t : State} {bs : List Byte} (hmem : t.mem = memWriteList s.mem outBase bs)
    (hdraw : t.outDraw = s.outDraw) (hlen : t.outLen.toNat = bs.length) : output t = bs := by
  refine List.ext_getElem (by simp [output, hlen]) fun k _ hk => ?_
  simp [output, outByte_written hmem hdraw, hk]

/-- OUT_LEN after an ENCODE with result OK (R133). -/
theorem encoded_outLen {s : State} {o : OpState}
    (hfit : encSize Config.build (opInput o s) ≤ Config.build.outCap) :
    (encoded o s).outLen.toNat = encSize Config.build (opInput o s) :=
  toNat_ofNat_of_le (Nat.le_trans hfit (by decide))

/-- The output of an ENCODE with result OK (R132). -/
theorem encoded_output {s : State} {o : OpState}
    (hfit : encSize Config.build (opInput o s) ≤ Config.build.outCap) :
    output (encoded o s) = frame Config.build (encodedInput Config.build o s) :=
  output_written (s := s) rfl rfl (by rw [encoded_outLen hfit, frame_length, encSize_encodedInput])

/-- Settles O17: the frame is written from index 0 on, and OUT_LEN is its length. -/
theorem encodeWritesExactlyTheFrame : Obligations.EncodeWritesExactlyTheFrame := by
  intro s t o h he hok
  obtain ⟨hfit, rfl⟩ := exec_encode_ok h he hok
  have hlen : (frame Config.build (encodedInput Config.build o s)).length = encSize Config.build (opInput o s) := by
    rw [frame_length, encSize_encodedInput]
  refine ⟨encoded_output hfit, by rw [encoded_output hfit, hlen], encoded_outLen hfit, rfl, fun k hk => ?_⟩
  rw [encoded_outLen hfit] at hk
  rw [outByte_written (s := s) (t := encoded o s) rfl rfl, List.getElem?_eq_none (by omega)]
  rfl

/-- Settles O18: the output is the frame of what the loop read. -/
theorem encodeOutputIsAFrameOfTheGrammar : Obligations.EncodeOutputIsAFrameOfTheGrammar := by
  intro s t o h he hok
  obtain ⟨hfit, rfl⟩ := exec_encode_ok h he hok
  rw [encoded_output hfit]
  exact ⟨isFrame_frame _ _, rfl, List.getLast?_concat, rfl⟩

end Sys2Proof.Proofs
end

/-! PROOFS for 42_decode.md, part 1: the state machine of DECODE and the loop form. -/
section

namespace Sys2Proof.Proofs

open Sys2Proof.Machine Sys2Proof.Safety

/-! ### The loop form by its parts -/

/-- The result code that the final check gives for the byte it reads (R151 item 3). -/
def finalCode (p : Params) (last : Byte) : ResultCode := if last = p.endByte then .ok else .noEndMarker

/-- What the last lines of the loop form make of the end of its loop (R166). -/
def scanResult (p : Params) (last : Byte) : ScanEnd → LoopResult
  | .failed c m => ⟨c, 0, m⟩
  | .stopped cnt m => ⟨finalCode p last, cnt, m⟩

/-- The loop form from the search for START on, for bytes that may be none (R166). -/
def seekResult (p : Params) (last : Byte) (bytes : List Byte) (m : Memory) : LoopResult :=
  match afterStart p bytes with
  | none => ⟨.noStartMarker, 0, m⟩
  | some rest => scanResult p last (scanLoop p rest 0 m)

@[simp] theorem decodeLoop_nil (p : Params) (last : Byte) (m : Memory) :
    decodeLoop p [] last m = ⟨.emptyInput, 0, m⟩ := rfl

/-- Past the check for an empty input, the loop form is the search for START and what follows it. -/
theorem decodeLoop_eq_seekResult {p : Params} {input : List Byte} (h : input ≠ []) (last : Byte) (m : Memory) :
    decodeLoop p input last m = seekResult p last input m := by
  rw [decodeLoop, if_neg h, seekResult]
  cases afterStart p input with
  | none => rfl
  | some rest =>
    dsimp only
    cases scanLoop p rest 0 m with
    | stopped cnt m' => exact (apply_ite (LoopResult.mk · cnt m') _ _ _).symm
    | failed c m' => rfl

theorem seekResult_start (p : Params) (last : Byte) (rest : List Byte) (m : Memory) :
    seekResult p last (p.startByte :: rest) m = scanResult p last (scanLoop p rest 0 m) := by
  rw [seekResult, afterStart, if_pos rfl]

theorem seekResult_skip {p : Params} {b : Byte} (hb : b ≠ p.startByte) (last : Byte) (rest : List Byte) (m : Memory) :
    seekResult p last (b :: rest) m = seekResult p last rest m := by
  rw [seekResult, afterStart, if_neg hb, seekResult]

/-- A byte other than the three reserved ones is literal (R89). -/
theorem isReserved_eq_false {p : Params} {b : Byte} (hs : b ≠ p.startByte) (he : b ≠ p.endByte)
    (hx : b ≠ p.escapeByte) : isReserved p b = false := by
  simp [isReserved, hs, he, hx]

/-- A literal body byte that finds the output buffer full ends the scan (R153). -/
theorem scanLoop_literal_full {p : Params} {b : Byte} {l : List Byte} {cnt : Nat} {m : Memory}
    (h : isReserved p b = false) (hl : l ≠ []) (hc : p.outCap ≤ cnt) :
    scanLoop p (b :: l) cnt m = .failed .overflow m := by
  obtain ⟨c, l, rfl⟩ := List.exists_cons_of_ne_nil hl
  simp only [isReserved, Bool.or_eq_false_iff, decide_eq_false_iff_not] at h
  simp [scanLoop, h, hc]

/-- An escape pair with a code that finds the output buffer full ends the scan (R153). -/
theorem scanLoop_escape_full {p : Params} (hp : p.Legal) {c v : Byte} {l : List Byte} {cnt : Nat} {m : Memory}
    (h : reservedOf p c = some v) (hc : p.outCap ≤ cnt) :
    scanLoop p (p.escapeByte :: c :: l) cnt m = .failed .overflow m := by
  obtain ⟨-, h2, h3⟩ := reserved_distinct hp
  simp [scanLoop, h2.symm, h3.symm, h, hc]

/-! ### Where the scan stands -/

/-- The completion with the result code, OUT_LEN and memory of a result of the loop form. -/
def completed (r : LoopResult) (s : State) : State := finish r.result (setOutLen r.outLen { s with mem := r.mem })

/-- DECODE stands in the DSTATE `d` of a non-empty input of at most IN_CAP bytes, of which the bytes `rest` are not
yet scanned, and its final check will read `last`. -/
structure ScanAt (p : Params) (d : DState) (rest : List Byte) (last : Byte) (o : OpState) (s : State) : Prop where
  dstate : o.dstate = d
  rest_eq : (opInput o s).drop o.i = rest
  last_eq : finalByte o s = last
  index : o.i ≤ o.n
  nonempty : 1 ≤ o.n
  capacity : o.n ≤ p.inCap

/-- A write to OUT_BUF changes no read of IN_BUF: the capacities keep the two apart (R10, R51). -/
theorem inByte_writeOut_of_lt {j : Nat} (hj : j < 65536) (d k : Nat) (v : Byte) (s : State) :
    inByte d j (writeOut k v s) = inByte d j s := by
  unfold inByte
  rw [writeOut_mem, memLookup_memWrite_other _ (by rw [inBase_eq, outBase_eq]; omega)]

theorem opInput_writeOut {o : OpState} (hn : o.n ≤ 65535) (k : Nat) (v : Byte) (s : State) :
    opInput o (writeOut k v s) = opInput o s :=
  List.map_congr_left fun j hj => inByte_writeOut_of_lt (by have := List.mem_range.1 hj; omega) _ k v s

section ScanAt

variable {p : Params} {d : DState} {b last : Byte} {rest : List Byte} {o : OpState} {s : State}

theorem ScanAt.length_eq (h : ScanAt p d rest last o s) : rest.length = o.n - o.i := by
  rw [← h.rest_eq, List.length_drop, opInput_length]

theorem ScanAt.index_lt (h : ScanAt p d (b :: rest) last o s) : o.i < o.n := by
  have hlen := h.length_eq
  rw [List.length_cons] at hlen
  omega

/-- The next byte is the head of what is left. -/
theorem ScanAt.drop_eq (h : ScanAt p d (b :: rest) last o s) :
    inByte o.draw o.i s = b ∧ (opInput o s).drop (o.i + 1) = rest := by
  have hrest := h.rest_eq
  rw [opInput_drop h.index_lt] at hrest
  exact List.cons.inj hrest

theorem ScanAt.readIn_eq (h : ScanAt p d (b :: rest) last o s) : readIn p o o.i s = .ok b := by
  rw [Machine.readIn_eq h.index_lt h.capacity, h.drop_eq.1]

/-- A step that takes the next byte. -/
theorem ScanAt.next (h : ScanAt p d (b :: rest) last o s) (d' : DState) (cnt : Nat) :
    ScanAt p d' rest last { o with dstate := d', i := o.i + 1, cnt := cnt } s :=
  ⟨rfl, h.drop_eq.2, h.last_eq, h.index_lt, h.nonempty, h.capacity⟩

/-- A write to OUT_BUF does not move the scan. -/
theorem ScanAt.writeOut (h : ScanAt p d rest last o s) (hp : p.Legal) (k : Nat) (v : Byte) :
    ScanAt p d rest last o (writeOut k v s) := by
  obtain ⟨-, ⟨-, hcap⟩, -⟩ := hp
  have hpos := h.nonempty
  have hn : o.n ≤ 65535 := Nat.le_trans h.capacity hcap
  refine ⟨h.dstate, ?_, ?_, h.index, hpos, h.capacity⟩
  · rw [opInput_writeOut hn, h.rest_eq]
  · exact (inByte_writeOut_of_lt (by omega) _ k v s).trans h.last_eq

/-- Within a non-empty input the internal step is `step()` of R152. -/
theorem ScanAt.decodeStep_eq (h : ScanAt p d rest last o s) : decodeStep p o s = scanStep p o s :=
  if_neg (Nat.ne_of_gt h.nonempty)

theorem ScanAt.seek_eq (h : ScanAt p .seek rest last o s) : decodeStep p o s = decodeSeek p o s := by
  rw [h.decodeStep_eq, scanStep, h.dstate]

theorem ScanAt.body_eq (h : ScanAt p .body rest last o s) : decodeStep p o s = decodeBody p o s := by
  rw [h.decodeStep_eq, scanStep, h.dstate]

theorem ScanAt.esc_eq (h : ScanAt p .esc rest last o s) : decodeStep p o s = decodeEsc p o s := by
  rw [h.decodeStep_eq, scanStep, h.dstate]

theorem ScanAt.final_eq (h : ScanAt p .final rest last o s) : decodeStep p o s = decodeFinal p o s := by
  rw [h.decodeStep_eq, scanStep, h.dstate]

/-- The scan may go to FINAL without taking a byte. -/
theorem ScanAt.toFinal (h : ScanAt p d rest last o s) (cnt : Nat) :
    ScanAt p .final rest last { o with dstate := .final, cnt := cnt } s :=
  ⟨rfl, h.rest_eq, h.last_eq, h.index, h.nonempty, h.capacity⟩

end ScanAt

/-! ### The internal steps against the loop -/

/-- A run whose first internal step goes on. -/
theorem runOp_of_running {f : OpState → State → Micro} {fuel : Nat} {o o' : OpState} {s s' : State}
    (hfuel : 1 ≤ fuel) (h : f o s = .running o' s') : runOp f fuel o s = runOp f (fuel - 1) o' s' := by
  obtain ⟨n, rfl⟩ : ∃ n, fuel = n + 1 := ⟨fuel - 1, by omega⟩
  rw [runOp_succ, h]
  rfl

/-- A run whose first internal step completes the operation. -/
theorem runOp_of_finished {f : OpState → State → Micro} {fuel : Nat} {o : OpState} {s t : State}
    (hfuel : 1 ≤ fuel) (h : f o s = .finished t) : runOp f fuel o s = .next t := by
  obtain ⟨n, rfl⟩ : ∃ n, fuel = n + 1 := ⟨fuel - 1, by omega⟩
  rw [runOp_succ, h]

section Steps

variable {p : Params} {last b c : Byte} {rest : List Byte} {o : OpState} {s : State}

/-- SEEK on a byte (R152). -/
theorem decodeStep_seek (h : ScanAt p .seek (b :: rest) last o s) :
    decodeStep p o s =
      if b = p.startByte then .running { o with dstate := .body, i := o.i + 1 } s
      else .running { o with dstate := .seek, i := o.i + 1 } s := by
  have hlt := h.index_lt
  rw [h.seek_eq, decodeSeek, if_neg (by omega), h.readIn_eq]
  simp only [h.dstate]

/-- SEEK at the end of the input (R152). -/
theorem decodeStep_seek_end (h : ScanAt p .seek [] last o s) :
    decodeStep p o s = .finished (completed ⟨.noStartMarker, 0, s.mem⟩ s) := by
  have hlen := h.length_eq
  have hindex := h.index
  rw [List.length_nil] at hlen
  rw [h.seek_eq, decodeSeek, if_pos (by omega)]
  rfl

/-- BODY on a byte that is not the last (R152). -/
theorem decodeStep_body (h : ScanAt p .body (b :: c :: rest) last o s) :
    decodeStep p o s =
      if b = p.startByte then .running { o with dstate := .body, i := o.i + 1, cnt := 0 } s
      else if b = p.endByte then .running { o with dstate := .final } s
      else if b = p.escapeByte then .running { o with dstate := .esc, i := o.i + 1 } s
      else append p b { o with dstate := .body, i := o.i + 1 } s := by
  have hlen := h.length_eq
  simp only [List.length_cons] at hlen
  rw [h.body_eq, decodeBody, if_neg (by omega), h.readIn_eq]
  simp only [h.dstate]

/-- BODY stops before the last byte (R151 item 2). -/
theorem decodeStep_body_stops (hskip : p.tailMode = .skip) (h : ScanAt p .body rest last o s)
    (hrest : rest.length ≤ 1) : decodeStep p o s = .running { o with dstate := .final } s := by
  have hlen := h.length_eq
  rw [h.body_eq, decodeBody, if_pos (by omega), hskip]

/-- ESC on the code byte (R152). -/
theorem decodeStep_esc (h : ScanAt p .esc (c :: rest) last o s) :
    decodeStep p o s =
      match reservedOf p c with
      | some v => append p v { o with i := o.i + 1, dstate := .body } s
      | none => .finished (completed ⟨.decodeError, 0, s.mem⟩ s) := by
  rw [h.esc_eq, decodeEsc, h.readIn_eq]
  rfl

/-- BODY on an ESCAPE that is not the last byte, and ESC on the byte after it (R152, R163). -/
theorem decodeStep_escape (hp : p.Legal) (h : ScanAt p .body (p.escapeByte :: c :: rest) last o s) :
    decodeStep p o s = .running { o with dstate := .esc, i := o.i + 1 } s ∧
    decodeStep p { o with dstate := .esc, i := o.i + 1 } s =
      match reservedOf p c with
      | some v => append p v { o with dstate := .body, i := o.i + 2 } s
      | none => .finished (completed ⟨.decodeError, 0, s.mem⟩ s) := by
  obtain ⟨-, hs, he⟩ := reserved_distinct hp
  have hstep := decodeStep_body h
  rw [if_neg hs.symm, if_neg he.symm, if_pos rfl] at hstep
  exact ⟨hstep, decodeStep_esc (h.next .esc o.cnt)⟩

/-- FINAL completes with the result that the last byte decides (R151 item 3). -/
theorem decodeStep_final (hfinal : p.finalMode = .lastByte) (h : ScanAt p .final rest last o s) :
    decodeStep p o s = .finished (completed (scanResult p last (.stopped o.cnt s.mem)) s) := by
  have hpos := h.nonempty
  have hread : readAgain p o (o.n - 1) s = .ok last := by
    rw [readAgain_eq (by omega) h.capacity]
    exact congrArg Except.ok h.last_eq
  simp only [h.final_eq, decodeFinal, hread, finalCheck, hfinal, scanResult, finalCode, decide_eq_true_eq]
  split <;> rfl

end Steps

section Run

variable {p : Params} (hp : p.Legal) (hskip : p.tailMode = .skip) (hfinal : p.finalMode = .lastByte) {last : Byte}
include hp hskip hfinal

/-- From BODY on the state machine does what the loop does: each turn of the loop is one step, or two for an escape
pair (R166). -/
theorem runOp_body {rest : List Byte} {cnt : Nat} {m : Memory} {fuel : Nat} {o : OpState} {s : State}
    (h : ScanAt p .body rest last o s) (hcnt : o.cnt = cnt) (hmem : s.mem = m) (hfuel : rest.length + 2 ≤ fuel) :
    runOp (decodeStep p) fuel o s = .next (completed (scanResult p last (scanLoop p rest cnt m)) s) := by
  induction rest, cnt, m using scanLoop.induct p generalizing fuel o s with
    (subst hcnt hmem; simp only [List.length_cons, List.length_nil] at hfuel)
  | case1 | case2 =>
    rw [runOp_of_running (by omega) (decodeStep_body_stops hskip h (by simp)),
      runOp_of_finished (by omega) (decodeStep_final hfinal (h.toFinal o.cnt))]
    rfl
  | case3 c rest _ _ ih =>
    rw [runOp_of_running (by omega) ((decodeStep_body h).trans (if_pos rfl)),
      scanLoop_start (List.cons_ne_nil c rest)]
    exact ih (h.next .body 0) rfl rfl (by simp only [List.length_cons]; omega)
  | case4 c rest _ _ hs =>
    have hstep := decodeStep_body h
    rw [if_neg hs, if_pos rfl] at hstep
    rw [runOp_of_running (by omega) hstep, runOp_of_finished (by omega) (decodeStep_final hfinal (h.toFinal o.cnt)),
      scanLoop_end hp]
  | case5 c rest _ _ v hv hfits _ _ ih =>
    obtain ⟨hstep, hesc⟩ := decodeStep_escape hp h
    rw [hv] at hesc
    rw [runOp_of_running (by omega) hstep, runOp_of_running (by omega) (hesc.trans (if_pos hfits)),
      scanLoop_escape hp hv hfits]
    exact ih (((h.next .esc o.cnt).next .body (o.cnt + 1)).writeOut hp o.cnt v) rfl rfl (by omega)
  | case6 c rest _ _ v hv hfull =>
    obtain ⟨hstep, hesc⟩ := decodeStep_escape hp h
    rw [hv] at hesc
    rw [runOp_of_running (by omega) hstep, runOp_of_finished (by omega) (hesc.trans (if_neg hfull)),
      scanLoop_escape_full hp hv (by omega)]
    rfl
  | case7 c rest _ _ hv =>
    obtain ⟨hstep, hesc⟩ := decodeStep_escape hp h
    rw [hv] at hesc
    rw [runOp_of_running (by omega) hstep, runOp_of_finished (by omega) hesc, scanLoop_illegal hp hv]
    rfl
  | case8 b c rest _ _ hs he hx hfits ih =>
    have hstep := decodeStep_body h
    rw [if_neg hs, if_neg he, if_neg hx] at hstep
    rw [runOp_of_running (by omega) (hstep.trans (if_pos hfits)),
      scanLoop_literal (isReserved_eq_false hs he hx) (List.cons_ne_nil c rest) hfits]
    exact ih ((h.next .body (o.cnt + 1)).writeOut hp o.cnt b) rfl rfl (by simp only [List.length_cons]; omega)
  | case9 b c rest _ _ hs he hx hfull =>
    have hstep := decodeStep_body h
    rw [if_neg hs, if_neg he, if_neg hx] at hstep
    rw [runOp_of_finished (by omega) (hstep.trans (if_neg hfull)),
      scanLoop_literal_full (isReserved_eq_false hs he hx) (List.cons_ne_nil c rest) (by omega)]
    rfl

/-- From SEEK on the state machine does what the search for START and the loop do (R166). -/
theorem runOp_seek {rest : List Byte} {fuel : Nat} {o : OpState} {s : State} (h : ScanAt p .seek rest last o s)
    (hcnt : o.cnt = 0) (hfuel : rest.length + 2 ≤ fuel) :
    runOp (decodeStep p) fuel o s = .next (completed (seekResult p last rest s.mem) s) := by
  induction rest generalizing fuel o s with
  | nil => exact runOp_of_finished (by omega) (decodeStep_seek_end h)
  | cons b rest ih =>
    rw [List.length_cons] at hfuel
    have hstep := decodeStep_seek h
    by_cases hb : b = p.startByte
    · subst hb
      rw [if_pos rfl] at hstep
      rw [runOp_of_running (by omega) hstep, seekResult_start]
      exact runOp_body hp hskip hfinal (h.next .body o.cnt) hcnt rfl (by omega)
    · rw [if_neg hb] at hstep
      rw [runOp_of_running (by omega) hstep, seekResult_skip hb]
      exact ih (h.next .seek o.cnt) hcnt (by omega)

/-- The state machine from its start does what the loop form does (R166). -/
theorem runOp_decode {o : OpState} (s : State) (hstart : o = startOp .decode o.n o.draw o.wait)
    (hn : o.n ≤ p.inCap) :
    runOp (decodeStep p) (stepBound o) o s =
      .next (completed (decodeLoop p (opInput o s) (finalByte o s) s.mem) s) := by
  by_cases h0 : o.n = 0
  · have hstep : decodeStep p o s = .finished (completed ⟨.emptyInput, 0, s.mem⟩ s) := if_pos h0
    rw [runOp_of_finished (by simp [stepBound]) hstep, opInput_eq_nil.2 h0, decodeLoop_nil]
  · have hi : o.i = 0 := by rw [hstart, startOp_i]
    have hat : ScanAt p .seek (opInput o s) (finalByte o s) o s :=
      ⟨by rw [hstart, startOp_dstate], by rw [hi, List.drop_zero], rfl, by omega, by omega, hn⟩
    rw [decodeLoop_eq_seekResult (fun h => h0 (opInput_eq_nil.1 h))]
    exact runOp_seek hp hskip hfinal hat (by rw [hstart, startOp_cnt]) (by rw [opInput_length, stepBound]; omega)

end Run

/-- Settles O21: both completions are that of the loop form. -/
theorem stateMachineIsTheLoopForm : Obligations.StateMachineIsTheLoopForm :=
  fun _ s _ hp hskip hfinal hstart hn => runOp_decode hp hskip hfinal s hstart hn

/-- An accepted command stands at its start. -/
theorem started_start {i : Instr} {s : State} {o : OpState} (h : Started i s o) : o = startOp i o.n o.draw o.wait := by
  obtain ⟨-, hstart, -⟩ := h
  have hlen : o.n = s.inLen.toNat := by rw [hstart, startOp_n]
  rwa [hlen]

/-- What an accepted DECODE leaves is what the loop form leaves (R152, R166). -/
theorem exec_decode_eq {s : State} {o : OpState} (h : Started .decode s o) :
    exec .decode s = .next (completed (decodeLoop Config.build (opInput o s) (finalByte o s) s.mem) s) := by
  have hstart := started_start h
  obtain ⟨hop, -, hn⟩ := h
  rw [exec_stepOf .decode hop]
  exact runOp_decode build_legal rfl rfl s hstart hn

/-- Settles O22: the build has the parameters under which the state machine is the loop form. -/
theorem decodeCompletes : Obligations.DecodeCompletes := fun _ _ h => exec_decode_eq h

end Sys2Proof.Proofs
end

/-! PROOFS for 42_decode.md, part 2: what DECODE returns for the wire forms of a payload and what surrounds them. -/
section

namespace Sys2Proof.Proofs

open Sys2Proof.Machine Sys2Proof.Safety

/-! ### The output of a DECODE -/

/-- A DECODE whose loop form leaves the bytes `q` in OUT_BUF from index 0 on, and their number in OUT_LEN, returns
them. -/
theorem exec_decode_returns {s : State} {o : OpState} {c : ResultCode} {q : List Byte} {m : Memory}
    (h : Started .decode s o) (hq : q.length ≤ 256)
    (hloop : decodeLoop Config.build (opInput o s) (finalByte o s) s.mem = ⟨c, q.length, memWriteList m outBase q⟩) :
    ∃ t, exec .decode s = .next t ∧ t.status.result = c ∧ output t = q := by
  refine ⟨_, exec_decode_eq h, by rw [hloop]; rfl, ?_⟩
  rw [hloop]
  exact output_written (s := { s with mem := m }) rfl rfl (toNat_ofNat_of_le (by dsimp only; omega))

/-- A DECODE whose loop form leaves OUT_LEN = 0 returns nothing. -/
theorem exec_decode_returns_nil {s : State} {o : OpState} {c : ResultCode} {m : Memory} (h : Started .decode s o)
    (hloop : decodeLoop Config.build (opInput o s) (finalByte o s) s.mem = ⟨c, 0, m⟩) :
    ∃ t, exec .decode s = .next t ∧ t.status.result = c ∧ output t = [] :=
  exec_decode_returns h (q := []) (by simp) hloop

/-- The final check of an input that every read gives reads its last byte (R151 item 3). -/
theorem finalByte_of_reads {s : State} {o : OpState} {x : List Byte} {b : Byte} (h : Reads o s x)
    (hb : x.getLast? = some b) : finalByte o s = b := by
  obtain ⟨-, hagain⟩ := h
  have hpos : 1 ≤ o.n := by
    rw [← opInputAgain_length o s, hagain]
    exact List.length_pos_of_mem (List.mem_of_getLast? hb)
  rw [← hagain, opInputAgain_getLast? hpos] at hb
  exact Option.some.inj hb

/-- START, a payload and what stands before and behind them in the input of an accepted command fit in IN_BUF, since a
payload is no longer than its wire forms (R91). -/
theorem payload_length_le {i : Instr} {s : State} {o : OpState} {x q r : List Byte} (h : Started i s o)
    (hin : opInput o s = x ++ (Config.build.startByte :: q.flatMap (wireForm Config.build) ++ r)) :
    x.length + 1 + q.length + r.length ≤ 256 := by
  obtain ⟨-, -, hcap⟩ := h
  have hlen := congrArg List.length hin
  have hsize := encSize_eq_length_add_reservedCount Config.build q
  rw [← frame_length, frame] at hsize
  simp only [opInput_length, List.length_append, List.length_cons, List.length_nil] at hlen hsize
  rw [inCap_eq] at hcap
  omega

/-! ### The scan of the wire forms of a payload -/

/-- The bytes before START do not matter to the search (R162). -/
theorem seekResult_append {p : Params} {x : List Byte} (hx : p.startByte ∉ x) (last : Byte) (r : List Byte)
    (m : Memory) : seekResult p last (x ++ r) m = seekResult p last r m := by
  rw [seekResult, seekResult, afterStart_append hx]

/-- The loop form on an input that begins with START. -/
theorem decodeLoop_cons_start (p : Params) (last : Byte) (rest : List Byte) (m : Memory) :
    decodeLoop p (p.startByte :: rest) last m = scanResult p last (scanLoop p rest 0 m) := by
  rw [decodeLoop_eq_seekResult (List.cons_ne_nil _ _), seekResult_start]

/-- The wire forms of `q`, scanned from count 0 on, leave `q`, and the final check decides, where the loop stops at
once on what follows them. -/
theorem exec_decode_scanned {s : State} {o : OpState} {q r : List Byte} {m : Memory} (h : Started .decode s o)
    (hq : q.length ≤ 256) (hr : r ≠ []) (hstop : ∀ cnt m, scanLoop Config.build r cnt m = .stopped cnt m)
    (hscan : decodeLoop Config.build (opInput o s) (finalByte o s) s.mem =
      scanResult Config.build (finalByte o s)
        (scanLoop Config.build (q.flatMap (wireForm Config.build) ++ r) 0 m)) :
    ∃ t, exec .decode s = .next t ∧ t.status.result = finalCode Config.build (finalByte o s) ∧ output t = q := by
  refine exec_decode_returns h (m := m) hq ?_
  rw [hscan, scanLoop_wire build_legal q hr (by rw [outCap_eq]; omega), hstop, Nat.zero_add]
  rfl

/-- `exec_decode_scanned` for an input that begins with START. -/
theorem exec_decode_wire {s : State} {o : OpState} {q r : List Byte} (h : Started .decode s o) (hr : r ≠ [])
    (hstop : ∀ cnt m, scanLoop Config.build r cnt m = .stopped cnt m)
    (hin : opInput o s = Config.build.startByte :: q.flatMap (wireForm Config.build) ++ r) :
    ∃ t, exec .decode s = .next t ∧ t.status.result = finalCode Config.build (finalByte o s) ∧ output t = q := by
  have hlen := payload_length_le (x := []) h hin
  refine exec_decode_scanned h (by omega) hr hstop (m := s.mem) ?_
  rw [hin, List.cons_append, decodeLoop_cons_start]

/-- One byte that is left is not scanned (R151 item 2). -/
theorem scanLoop_single (p : Params) (b : Byte) (cnt : Nat) (m : Memory) : scanLoop p [b] cnt m = .stopped cnt m := rfl

/-- Settles O33: the loop appends the payload, stops before END, and the final check finds END. -/
theorem encodeThenDecodeRoundTrip : Obligations.EncodeThenDecodeRoundTrip := by
  intro s t s' o o' h he hok h' hreads
  obtain ⟨hout, -⟩ := encodeWritesExactlyTheFrame s t o h he hok
  rw [hout, frame] at hreads
  obtain ⟨t', he', hres, hpayload⟩ :=
    exec_decode_wire h' (List.cons_ne_nil _ _) (scanLoop_single _ _) hreads.1
  rw [finalByte_of_reads hreads List.getLast?_concat] at hres
  refine ⟨t', he', hres, hpayload, fun x hx => ?_⟩
  rw [hpayload, encodedInput_eq (hx.2.trans hx.1.symm), hx.1]

/-! ### The end of the input -/

/-- A last byte other than END is not scanned, and gives NO_END_MARKER (R151). -/
theorem exec_decode_unscanned {s : State} {o : OpState} {q : List Byte} {b : Byte} (h : Started .decode s o)
    (hb : b ≠ Config.build.endByte)
    (hreads : Reads o s (Config.build.startByte :: q.flatMap (wireForm Config.build) ++ [b])) :
    ∃ t, exec .decode s = .next t ∧ t.status.result = .noEndMarker ∧ output t = q := by
  have hrun := exec_decode_wire h (List.cons_ne_nil _ _) (scanLoop_single _ _) hreads.1
  rwa [finalByte_of_reads hreads List.getLast?_concat, finalCode, if_neg hb] at hrun

/-- Settles O29: the loop stops before a lone ESCAPE, and takes the last byte as the code of one before it. -/
theorem escapeAtTheEndOfTheInput : Obligations.EscapeAtTheEndOfTheInput := by
  refine fun s o q h => ⟨exec_decode_unscanned h (by decide), fun c r hreads hc => ?_⟩
  have hlast : finalByte o s = c := finalByte_of_reads hreads (List.getLast?_append_of_ne_nil _ (List.cons_ne_nil _ _))
  have hcode : c ≠ Config.build.endByte := by
    rintro rfl
    rw [reservedOf_eq_none build_legal rfl] at hc
    cases hc
  have hin := hreads.1
  have hlen := payload_length_le (x := []) h hin
  rw [List.length_cons] at hlen
  refine exec_decode_returns h (m := s.mem) (by rw [List.length_append, List.length_singleton]; omega) ?_
  rw [hin, List.cons_append, decodeLoop_cons_start, hlast,
    scanLoop_wire build_legal q (List.cons_ne_nil _ _) (by rw [outCap_eq]; omega),
    scanLoop_escape build_legal hc (by rw [outCap_eq]; omega), Nat.zero_add, Nat.add_zero outBase,
    memWrite_memWriteList, List.length_append, List.length_singleton, scanLoop, scanResult, finalCode, if_neg hcode]

/-- Settles O30: the loop stops at the END, whatever follows it. -/
theorem earlyEndStopsTheScan : Obligations.EarlyEndStopsTheScan := by
  intro s o q rest h hrest hin
  refine ⟨?_, fun hagain => ?_⟩
  · obtain ⟨t, he, hres, hout⟩ := exec_decode_wire h (List.cons_ne_nil _ _) (scanLoop_end build_legal rest) hin
    exact ⟨t, he, hout, hres⟩
  · have hpos : 1 ≤ o.n := by
      rw [← opInput_length o s, hin]
      simp
    rw [← opInputAgain_getLast? hpos, hagain, hin, List.getLast?_append_of_ne_nil _ (List.cons_ne_nil _ _),
      List.getLast?_cons_of_ne_nil hrest]

/-- Settles O35: the last byte of the truncated frame is a literal byte that is not scanned, or a code that is. -/
theorem truncatedFrame : Obligations.TruncatedFrame := by
  intro s o payload b h hb hreads
  obtain ⟨q, rfl⟩ : ∃ q, payload = q ++ [b] := List.getLast?_eq_some_iff.1 hb
  have hwire : (frame Config.build (q ++ [b])).dropLast =
      Config.build.startByte :: q.flatMap (wireForm Config.build) ++ wireForm Config.build b := by
    rw [frame, List.dropLast_concat, List.flatMap_append, List.flatMap_singleton, List.cons_append]
  rw [hwire] at hreads
  by_cases hres : isReserved Config.build b = true
  · obtain ⟨c, hc, hw⟩ := wireForm_reserved hres
    rw [hw] at hreads
    rw [if_pos hres]
    exact (escapeAtTheEndOfTheInput s o q h).2 c b hreads (reservedOf_codeOf build_legal hc)
  · rw [wireForm_literal (by simpa using hres)] at hreads
    rw [if_neg hres, List.dropLast_concat]
    refine exec_decode_unscanned h ?_ hreads
    rintro rfl
    exact hres (by decide)

/-! ### What stands before a frame -/

/-- Bytes after START that hold no END and no ESCAPE leave nothing but bytes in OUT_BUF once a START follows them:
the loop begins anew (R157). -/
theorem scanLoop_resync {p : Params} {post r : List Byte} (hend : p.endByte ∉ post) (hescape : p.escapeByte ∉ post)
    (hr : r ≠ []) {cnt : Nat} (m : Memory) (hcap : cnt + post.length ≤ p.outCap) :
    ∃ m', scanLoop p (post ++ p.startByte :: r) cnt m = scanLoop p r 0 m' := by
  induction post generalizing cnt m with
  | nil => exact ⟨m, scanLoop_start hr cnt m⟩
  | cons b post ih =>
    simp only [List.mem_cons, not_or] at hend hescape
    rw [List.length_cons] at hcap
    by_cases hb : b = p.startByte
    · rw [hb, List.cons_append, scanLoop_start (by simp)]
      exact ih hend.2 hescape.2 m (by omega)
    · have hliteral : isReserved p b = false := isReserved_eq_false hb (Ne.symm hend.1) (Ne.symm hescape.1)
      rw [List.cons_append, scanLoop_literal hliteral (by simp) (by omega)]
      exact ih hend.2 hescape.2 _ (by omega)

/-- The loop form on bytes `x` before a frame that R168 allows: it scans the frame from its START on. -/
theorem decodeLoop_resync {p : Params} {x q : List Byte} (last : Byte) (m : Memory) (hcap : x.length ≤ p.outCap)
    (hx : ∀ pre post, x = pre ++ p.startByte :: post → p.startByte ∉ pre → p.endByte ∉ post ∧ p.escapeByte ∉ post) :
    ∃ m', decodeLoop p (x ++ frame p q) last m =
      scanResult p last (scanLoop p (q.flatMap (wireForm p) ++ [p.endByte]) 0 m') := by
  rw [decodeLoop_eq_seekResult (by simp [frame])]
  by_cases hstart : p.startByte ∈ x
  · obtain ⟨pre, post, rfl, hpre⟩ := List.eq_append_cons_of_mem hstart
    obtain ⟨hend, hescape⟩ := hx pre post rfl hpre
    simp only [List.length_append, List.length_cons] at hcap
    obtain ⟨m', hm'⟩ := scanLoop_resync hend hescape (r := q.flatMap (wireForm p) ++ [p.endByte]) (by simp) (cnt := 0) m
      (by omega)
    refine ⟨m', ?_⟩
    rw [List.append_assoc, seekResult_append hpre, List.cons_append, seekResult_start, frame, List.cons_append, hm']
  · refine ⟨m, ?_⟩
    rw [seekResult_append hstart, frame, List.cons_append, seekResult_start]

/-- Settles O34: the loop begins anew at the frame's START; an END stops it before, and an illegal pair fails. -/
theorem resynchronisationOnTheLatestStart : Obligations.ResynchronisationOnTheLatestStart := by
  intro s o x payload h _ hreads
  have hin := hreads.1
  have hlast : finalByte o s = Config.build.endByte := finalByte_of_reads hreads (by
    rw [frame, ← List.append_assoc, List.getLast?_concat])
  refine ⟨fun hx => ?_, ?_, ?_⟩
  · rw [frame] at hin
    have hlen := payload_length_le h hin
    obtain ⟨m, hm⟩ := decodeLoop_resync (q := payload) (finalByte o s) s.mem (by rw [outCap_eq]; omega) hx
    obtain ⟨t, he, hres, hout⟩ := exec_decode_scanned h (q := payload) (by omega)
      (List.cons_ne_nil _ _) (scanLoop_single _ _) (by rw [hin, ← hm, frame])
    exact ⟨t, he, by rw [hres, hlast]; rfl, hout⟩
  · rintro rfl
    have hrun := exec_decode_wire (q := [0x10]) h (List.cons_ne_nil _ _)
      (scanLoop_end build_legal (frame Config.build payload)) hin
    rwa [hlast] at hrun
  · rintro rfl
    have hloop : decodeLoop Config.build (opInput o s) (finalByte o s) s.mem = ⟨.decodeError, 0, s.mem⟩ := by
      rw [hin, List.cons_append, List.cons_append, List.cons_append, decodeLoop_cons_start,
        scanLoop_illegal build_legal (by decide)]
      rfl
    obtain ⟨t, he, hres, -⟩ := exec_decode_returns_nil h hloop
    exact ⟨t, he, hres⟩

/-- A DECODE of an input without START returns nothing (R202). -/
theorem exec_decode_noStart {s : State} {o : OpState} {x : List Byte} (h : Started .decode s o) (hin : opInput o s = x)
    (hx : x ≠ []) (hstart : Config.build.startByte ∉ x) :
    ∃ t, exec .decode s = .next t ∧ t.status.result = .noStartMarker ∧ output t = [] := by
  refine exec_decode_returns_nil h (m := s.mem) ?_
  rw [hin, decodeLoop_eq_seekResult hx, seekResult, afterStart_eq_none.2 hstart]

/-- A DECODE of an input whose first START is its last byte returns nothing (R156). -/
theorem exec_decode_startLast {s : State} {o : OpState} {x : List Byte} (h : Started .decode s o)
    (hreads : Reads o s (x ++ [Config.build.startByte])) (hx : Config.build.startByte ∉ x) :
    ∃ t, exec .decode s = .next t ∧ t.status.result = .noEndMarker ∧ output t = [] := by
  refine exec_decode_returns_nil h (m := s.mem) ?_
  rw [hreads.1, decodeLoop_eq_seekResult (by simp), seekResult_append hx, seekResult_start,
    finalByte_of_reads hreads List.getLast?_concat]
  rfl

/-- Settles O32: with one or two bytes the loop scans none. -/
theorem minimalInputs : Obligations.MinimalInputs := by
  refine fun s o h => ⟨fun b hreads => ?_, fun b c hreads => ?_⟩
  · by_cases hb : b = Config.build.startByte
    · subst hb
      obtain ⟨t, he, hres, hout⟩ := exec_decode_startLast (x := []) h hreads (by simp)
      exact ⟨t, he, hout, by rw [hres, if_pos rfl]⟩
    · obtain ⟨t, he, hres, hout⟩ := exec_decode_noStart h hreads.1 (by simp) (by simpa using Ne.symm hb)
      exact ⟨t, he, hout, by rw [hres, if_neg hb]⟩
  · by_cases hb : b = Config.build.startByte
    · subst hb
      obtain ⟨t, he, hres, hout⟩ :=
        exec_decode_wire (q := []) h (List.cons_ne_nil _ _) (scanLoop_single _ c) hreads.1
      rw [finalByte_of_reads hreads rfl] at hres
      exact ⟨t, he, hout, by rw [hres, if_pos rfl]; rfl⟩
    · by_cases hc : c = Config.build.startByte
      · subst hc
        obtain ⟨t, he, hres, hout⟩ := exec_decode_startLast (x := [b]) h hreads (by simpa using Ne.symm hb)
        exact ⟨t, he, hout, by rw [hres, if_neg hb, if_pos rfl]⟩
      · obtain ⟨t, he, hres, hout⟩ :=
          exec_decode_noStart h hreads.1 (by simp) (by simpa using ⟨Ne.symm hb, Ne.symm hc⟩)
        exact ⟨t, he, hout, by rw [hres, if_neg hb, if_neg hc]⟩

/-! ### Two memories -/

/-- Two ends of the loop, from two memories, that report the same and leave the same bytes in OUT_BUF. -/
inductive SamePayload (p : Params) : ScanEnd → ScanEnd → Prop where
  | stopped (q : List Byte) (m m' : Memory) : q.length ≤ p.outCap →
      SamePayload p (.stopped q.length (memWriteList m outBase q)) (.stopped q.length (memWriteList m' outBase q))
  | failed (c : ResultCode) (m m' : Memory) : SamePayload p (.failed c m) (.failed c m')

/-- The loop appends the same bytes whatever memory held before: behind the payload `q` so far, or anew. -/
theorem scanLoop_samePayload {p : Params} (hp : p.Legal) {rest q : List Byte} {cnt : Nat} {m₁ m₂ m m' : Memory}
    (hq : q.length ≤ p.outCap) (hcnt : cnt = q.length) (h₁ : m₁ = memWriteList m outBase q)
    (h₂ : m₂ = memWriteList m' outBase q) : SamePayload p (scanLoop p rest cnt m₁) (scanLoop p rest cnt m₂) := by
  induction rest, cnt, m₁ using scanLoop.induct p generalizing q m m' m₂ with subst hcnt
  | case1 | case2 =>
    subst h₁ h₂
    exact .stopped q m m' hq
  | case3 c rest _ _ ih =>
    rw [scanLoop_start (List.cons_ne_nil c rest), scanLoop_start (List.cons_ne_nil c rest)]
    exact ih (q := []) (Nat.zero_le _) rfl rfl rfl
  | case4 =>
    subst h₁ h₂
    rw [scanLoop_end hp, scanLoop_end hp]
    exact .stopped q m m' hq
  | case5 c rest _ _ v hv hfits _ _ ih =>
    subst h₁ h₂
    rw [scanLoop_escape hp hv hfits, scanLoop_escape hp hv hfits]
    exact ih (by simpa using hfits) (by simp) (memWrite_memWriteList ..) (memWrite_memWriteList ..)
  | case6 c rest _ _ v hv hfull =>
    rw [scanLoop_escape_full hp hv (by omega), scanLoop_escape_full hp hv (by omega)]
    exact .failed _ _ _
  | case7 c rest _ _ hv =>
    rw [scanLoop_illegal hp hv, scanLoop_illegal hp hv]
    exact .failed _ _ _
  | case8 b c rest _ _ hs he hx hfits ih =>
    have hliteral : isReserved p b = false := isReserved_eq_false hs he hx
    subst h₁ h₂
    rw [scanLoop_literal hliteral (List.cons_ne_nil c rest) hfits,
      scanLoop_literal hliteral (List.cons_ne_nil c rest) hfits]
    exact ih (by simpa using hfits) (by simp) (memWrite_memWriteList ..) (memWrite_memWriteList ..)
  | case9 b c rest _ _ hs he hx hfull =>
    have hliteral : isReserved p b = false := isReserved_eq_false hs he hx
    rw [scanLoop_literal_full hliteral (List.cons_ne_nil c rest) (by omega),
      scanLoop_literal_full hliteral (List.cons_ne_nil c rest) (by omega)]
    exact .failed _ _ _

/-- Settles O31: the search ends at the same START, and from there on the loop does the same in both memories. -/
theorem bytesBeforeStartAreSkipped : Obligations.BytesBeforeStartAreSkipped := by
  intro s s' o o' x h h' hx hhead hin hlast
  obtain ⟨rest, hin'⟩ : ∃ rest, opInput o' s' = Config.build.startByte :: rest := List.head?_eq_some_iff.1 hhead
  have hloop : decodeLoop Config.build (opInput o s) (finalByte o s) s.mem =
      scanResult Config.build (finalByte o' s') (scanLoop Config.build rest 0 s.mem) := by
    rw [hin, hin', decodeLoop_eq_seekResult (by simp), seekResult_append hx, seekResult_start, hlast]
  have hloop' : decodeLoop Config.build (opInput o' s') (finalByte o' s') s'.mem =
      scanResult Config.build (finalByte o' s') (scanLoop Config.build rest 0 s'.mem) := by
    rw [hin', decodeLoop_cons_start]
  have hsame : SamePayload Config.build (scanLoop Config.build rest 0 s.mem) (scanLoop Config.build rest 0 s'.mem) :=
    scanLoop_samePayload build_legal (q := []) (Nat.zero_le _) rfl rfl rfl
  generalize scanLoop Config.build rest 0 s.mem = e at hloop hsame
  generalize scanLoop Config.build rest 0 s'.mem = e' at hloop' hsame
  cases hsame with
  | stopped q m m' hq =>
    obtain ⟨t, he, hres, hout⟩ := exec_decode_returns h hq hloop
    obtain ⟨t', he', hres', hout'⟩ := exec_decode_returns h' hq hloop'
    exact ⟨t, t', he, he', hres.trans hres'.symm, hout.trans hout'.symm⟩
  | failed c m m' =>
    obtain ⟨t, he, hres, hout⟩ := exec_decode_returns_nil h hloop
    obtain ⟨t', he', hres', hout'⟩ := exec_decode_returns_nil h' hloop'
    exact ⟨t, t', he, he', hres.trans hres'.symm, hout.trans hout'.symm⟩

end Sys2Proof.Proofs
end

/-! PROOFS for 42_decode.md, part 3: the results of DECODE, its termination, and its bounds. -/
section

namespace Sys2Proof.Proofs

open Sys2Proof.Machine Sys2Proof.Safety

/-! ### The results of the loop form -/

/-- Why the loop fails: it reached an ESCAPE without a code behind it, or more bytes than OUT_BUF holds and the two
that are never appended (R163, R164). -/
theorem scanLoop_failed {p : Params} (hp : p.Legal) {rest : List Byte} {cnt : Nat} {m m' : Memory} {c : ResultCode}
    (h : scanLoop p rest cnt m = .failed c m') :
    (c = .decodeError ∧ p.escapeByte ∈ rest) ∨ (c = .overflow ∧ p.outCap + 2 ≤ cnt + rest.length) := by
  induction rest, cnt, m using scanLoop.induct p with
  | case1 | case2 => cases h
  | case3 c rest _ _ ih =>
    rw [scanLoop_start (List.cons_ne_nil c rest)] at h
    refine (ih h).imp (And.imp_right (List.mem_cons_of_mem _)) (And.imp_right fun hfull => ?_)
    simp only [List.length_cons] at hfull ⊢
    omega
  | case4 =>
    rw [scanLoop_end hp] at h
    cases h
  | case5 _ rest _ _ v hv hfits _ _ ih =>
    rw [scanLoop_escape hp hv hfits] at h
    refine (ih h).imp (And.imp_right fun _ => List.mem_cons_self) (And.imp_right fun hfull => ?_)
    simp only [List.length_cons]
    omega
  | case6 _ rest _ _ v hv hfull =>
    rw [scanLoop_escape_full hp hv (by omega)] at h
    cases h
    exact .inr ⟨rfl, by simp only [List.length_cons]; omega⟩
  | case7 _ _ _ _ hv =>
    rw [scanLoop_illegal hp hv] at h
    cases h
    exact .inl ⟨rfl, List.mem_cons_self⟩
  | case8 b c rest _ _ hs he hx hfits ih =>
    rw [scanLoop_literal (isReserved_eq_false hs he hx) (List.cons_ne_nil c rest) hfits] at h
    refine (ih h).imp (And.imp_right (List.mem_cons_of_mem _)) (And.imp_right fun hfull => ?_)
    simp only [List.length_cons] at hfull ⊢
    omega
  | case9 b c rest _ _ hs he hx hfull =>
    rw [scanLoop_literal_full (isReserved_eq_false hs he hx) (List.cons_ne_nil c rest) (by omega)] at h
    cases h
    exact .inr ⟨rfl, by simp only [List.length_cons]; omega⟩

/-- What the loop form can report (R154). -/
inductive LoopOutcome (p : Params) (input : List Byte) (last : Byte) : LoopResult → Prop where
  | emptyInput (m : Memory) : input = [] → LoopOutcome p input last ⟨.emptyInput, 0, m⟩
  | noStartMarker (m : Memory) : input ≠ [] → p.startByte ∉ input → LoopOutcome p input last ⟨.noStartMarker, 0, m⟩
  | decodeError (m : Memory) : p.startByte ∈ input → p.escapeByte ∈ input →
      LoopOutcome p input last ⟨.decodeError, 0, m⟩
  | overflow (m : Memory) : p.startByte ∈ input → p.outCap + 2 < input.length →
      LoopOutcome p input last ⟨.overflow, 0, m⟩
  | scanned (cnt : Nat) (m : Memory) : p.startByte ∈ input → LoopOutcome p input last ⟨finalCode p last, cnt, m⟩

theorem decodeLoop_outcome {p : Params} (hp : p.Legal) (input : List Byte) (last : Byte) (m : Memory) :
    LoopOutcome p input last (decodeLoop p input last m) := by
  by_cases hne : input = []
  · subst hne
    exact .emptyInput m rfl
  · rw [decodeLoop_eq_seekResult hne, seekResult]
    cases hafter : afterStart p input with
    | none => exact .noStartMarker m hne (afterStart_eq_none.1 hafter)
    | some rest =>
      have hstart : p.startByte ∈ input := by
        by_contra hno
        rw [afterStart_eq_none.2 hno] at hafter
        cases hafter
      obtain ⟨hlen, hsub⟩ := afterStart_some hafter
      dsimp only
      cases hscan : scanLoop p rest 0 m with
      | stopped cnt m' => exact .scanned cnt m' hstart
      | failed c m' =>
        rcases scanLoop_failed hp hscan with ⟨rfl, hescape⟩ | ⟨rfl, hfull⟩
        · exact .decodeError m' hstart (hsub _ hescape)
        · exact .overflow m' hstart (by omega)

/-- Settles O25: each result code is that of its case, and OVERFLOW needs more input than IN_BUF holds. -/
theorem decodeResultConditions : Obligations.DecodeResultConditions := by
  intro s o h
  have hlast : ∀ x, Reads o s x → 1 ≤ o.n → x.getLast? = some (finalByte o s) := fun x hx hpos => by
    rw [← hx.2, opInputAgain_getLast? hpos]
  have hpos (hne : opInput o s ≠ []) : 1 ≤ o.n := Nat.one_le_iff_ne_zero.2 (mt opInput_eq_nil.2 hne)
  refine ⟨_, exec_decode_eq h, ?_⟩
  have hout := decodeLoop_outcome build_legal (opInput o s) (finalByte o s) s.mem
  generalize decodeLoop Config.build (opInput o s) (finalByte o s) s.mem = r at hout
  cases hout with
  | emptyInput m hnil => simp [completed, opInput_eq_nil.1 hnil]
  | noStartMarker m hne hno => simpa [completed, hno, Nat.ne_of_gt (hpos hne), hpos hne] using hlast
  | decodeError m hstart hescape =>
    have hn := hpos (List.ne_nil_of_mem hstart)
    simpa [completed, hstart, hescape, Nat.ne_of_gt hn] using hlast
  | overflow m hstart hfull =>
    obtain ⟨-, -, hcap⟩ := h
    rw [inCap_eq] at hcap
    rw [opInput_length, outCap_eq] at hfull
    omega
  | scanned cnt m hstart =>
    have hn := hpos (List.ne_nil_of_mem hstart)
    by_cases hend : finalByte o s = Config.build.endByte <;>
      simpa [completed, finalCode, hend, hstart, Nat.ne_of_gt hn] using hlast

/-! ### Where the scan may stand -/

/-- The scan index stays inside the input, and a code byte is one of the input (R152, R165). -/
structure ScanInside (p : Params) (o : OpState) : Prop where
  index : o.i ≤ o.n
  escape : o.dstate = .esc → o.i < o.n
  capacity : o.n ≤ p.inCap

/-- A `step()` that goes on stays inside the input. -/
theorem scanStep_inside {p : Params} {o o' : OpState} {s s' : State} (h : ScanInside p o)
    (hstep : scanStep p o s = .running o' s') : ScanInside p o' := by
  obtain ⟨hindex, -, hcap⟩ := h
  have heffect := scanStep_effect p o s
  rw [hstep] at heffect
  cases heffect with
  | scanned _ hsame hi hlt hcase =>
    refine ⟨by rw [hi, hsame.n]; omega, fun hesc => ?_, by rwa [hsame.n]⟩
    rcases hcase with ⟨-, hd, -⟩ | ⟨-, hd, -⟩ | ⟨-, -, -, hlt'⟩
    · rw [hesc] at hd
      simp at hd
    · rw [hesc] at hd
      cases hd
    · rw [hi, hsame.n]
      exact hlt'
  | appended _ v hsame hi hlt _ _ hd =>
    exact ⟨by rw [hi, hsame.n]; omega, by simp [hd], by rwa [hsame.n]⟩
  | toFinal _ hsame hi _ hd => exact ⟨by rwa [hi, hsame.n], by simp [hd], by rwa [hsame.n]⟩
  | tailAppended _ v hsame hi _ hd => exact ⟨by rwa [hi, hsame.n], by simp [hd], by rwa [hsame.n]⟩

/-- A `step()` inside a non-empty input meets no guard of the model. -/
theorem scanStep_ne_fault {p : Params} {o : OpState} {s : State} (h : ScanInside p o) (hpos : 1 ≤ o.n) (r : Fault) :
    scanStep p o s ≠ .fault r := by
  intro hstep
  obtain ⟨hindex, hescape, hcap⟩ := h
  have heffect := scanStep_effect p o s
  rw [hstep] at heffect
  cases heffect with
  | outside k hk hout hseek hbody =>
    cases hd : o.dstate <;> simp only [hd, reduceCtorEq, if_true, if_false, forall_const] at hk hseek hbody hescape <;>
      omega

/-- A DECODE inside its input completes, with as many internal steps as are left (R165). -/
theorem runOp_decode_completes {p : Params} {fuel : Nat} {o : OpState} (s : State) (h : ScanInside p o)
    (hopr : o.opr = .decode) (hfuel : stepsLeft o ≤ fuel) : ∃ t, runOp (decodeStep p) fuel o s = .next t := by
  induction fuel generalizing o s with
  | zero =>
    have := stepsLeft_pos o
    omega
  | succ fuel ih =>
    by_cases h0 : o.n = 0
    · exact ⟨_, runOp_of_finished (by omega) (if_pos h0)⟩
    · have hstep : decodeStep p o s = scanStep p o s := if_neg h0
      cases hscan : scanStep p o s with
      | running o' s' =>
        have hless := scanStep_stepsLeft hopr hscan
        have hsame := (decodeStep_goesOn (hstep.trans hscan)).1.same
        rw [runOp_of_running (by omega) (hstep.trans hscan)]
        exact ih s' (scanStep_inside h hscan) (hsame.opr.trans hopr) (by omega)
      | finished t => exact ⟨t, runOp_of_finished (by omega) (hstep.trans hscan)⟩
      | fault r => exact absurd hscan (scanStep_ne_fault h (by omega) r)

/-- A DECODE at its start is inside its input. -/
theorem scanInside_start {p : Params} {o : OpState} (hstart : o = startOp .decode o.n o.draw o.wait)
    (hn : o.n ≤ p.inCap) : ScanInside p o := by
  rw [hstart]
  exact ⟨Nat.zero_le _, by simp, hn⟩

/-- Settles O23: the cases of one `step()` say how it moves i, and the steps that are left are at most N + 2. -/
theorem decodeEndsWithinNPlusThreeSteps : Obligations.DecodeEndsWithinNPlusThreeSteps := by
  refine fun p s o => ⟨fun o' s' hstep => ?_, fun hd o' s' hstep => ?_, fun hstart hn => ?_⟩
  · have heffect := scanStep_effect p o s
    rw [hstep] at heffect
    cases heffect with
    | scanned _ _ hi hlt => exact ⟨.inl hi, by omega⟩
    | appended _ v _ hi hlt => exact ⟨.inl hi, by omega⟩
    | toFinal _ _ hi hd hd' => exact ⟨.inr ⟨hi, hd, hd'⟩, by omega⟩
    | tailAppended _ v _ hi hd hd' => exact ⟨.inr ⟨hi, hd, hd'⟩, by omega⟩
  · have heffect := scanStep_effect p o s
    rw [hstep] at heffect
    cases heffect with
    | scanned _ _ _ _ hcase => simp [hd] at hcase
    | appended _ v _ _ _ _ _ _ hcase => simp [hd] at hcase
    | toFinal _ _ _ hbody => simp [hd] at hbody
    | tailAppended _ v _ _ hbody => simp [hd] at hbody
  · have hleft := stepsLeft_le o
    exact runOp_decode_completes s (scanInside_start hstart hn) (by rw [hstart, startOp_opr]) (by omega)

/-! ### How many bytes may be appended -/

/-- The bytes appended so far under TAIL_MODE = SKIP: no more than scanned after START, less one for an ESCAPE whose
code is to come, and N - 2 at most (R164). -/
structure CountBound (o : OpState) : Prop where
  total : o.cnt ≤ o.n - 2
  seek : o.dstate = .seek → o.cnt = 0
  body : o.dstate = .body → o.cnt + 1 ≤ o.i
  escape : o.dstate = .esc → o.cnt + 2 ≤ o.i

theorem countBound_start {o : OpState} (hstart : o = startOp .decode o.n o.draw o.wait) : CountBound o := by
  rw [hstart]
  exact ⟨Nat.zero_le _, by simp, by simp, by simp⟩

/-- Where BODY or ESC may append, fewer than N - 2 bytes have been appended. -/
theorem CountBound.lt_of_append {o : OpState} (h : CountBound o) (hlt : o.i < o.n)
    (hcase : o.dstate = .body ∧ o.i + 1 < o.n ∨ o.dstate = .esc) : o.cnt < o.n - 2 := by
  rcases hcase with ⟨hd, hlt'⟩ | hd
  · have hbody := h.body hd
    omega
  · have hescape := h.escape hd
    omega

/-- A `step()` that goes on keeps the bound. -/
theorem scanStep_countBound {p : Params} {o o' : OpState} {s s' : State} (hskip : p.tailMode = .skip)
    (h : CountBound o) (hstep : scanStep p o s = .running o' s') : CountBound o' := by
  have heffect := scanStep_effect p o s
  rw [hstep] at heffect
  cases heffect with
  | scanned _ hsame hi hlt hcase =>
    have htotal := h.total
    rcases hcase with ⟨hd, hd', hcnt⟩ | ⟨hd, hd', hcnt⟩ | ⟨hd, hd', hcnt, hlt'⟩
    · have hseek := h.seek hd
      refine ⟨?_, fun _ => ?_, fun _ => ?_, fun hesc => ?_⟩
      · rw [hcnt, hsame.n]
        exact htotal
      · omega
      · omega
      · simp [hesc] at hd'
    · exact ⟨by omega, by simp [hd'], fun _ => by omega, by simp [hd']⟩
    · have hbody := h.body hd
      refine ⟨?_, by simp [hd'], by simp [hd'], fun _ => by omega⟩
      rw [hcnt, hsame.n]
      exact htotal
  | appended _ v hsame hi hlt hcnt hfits hd hcase =>
    have hmore := h.lt_of_append hlt hcase
    refine ⟨?_, by simp [hd], fun _ => ?_, by simp [hd]⟩
    · rw [hcnt, hsame.n]
      exact hmore
    · rcases hcase with ⟨hd', -⟩ | hd'
      · have hbody := h.body hd'
        omega
      · have hescape := h.escape hd'
        omega
  | toFinal _ hsame hi hd hd' hcnt =>
    have htotal := h.total
    refine ⟨?_, by simp [hd'], by simp [hd'], by simp [hd']⟩
    rw [hsame.n]
    omega
  | tailAppended _ v _ _ _ _ _ _ ht =>
    rw [hskip] at ht
    cases ht

/-- An internal step that goes on is a `step()` (R152). -/
theorem scanStep_of_running {p : Params} {o o' : OpState} {s s' : State} (h : decodeStep p o s = .running o' s') :
    scanStep p o s = .running o' s' := by
  unfold decodeStep at h
  split at h
  · cases h
  · exact h

/-- What the bound says where a DECODE completes (R164). -/
theorem decodeStep_overflow_bounds {p : Params} {o : OpState} {s t : State} (hskip : p.tailMode = .skip)
    (h : CountBound o) (hstep : decodeStep p o s = .finished t) :
    t.outLen.toNat ≤ o.n - 2 ∧ (t.status.result = .overflow → p.outCap + 2 < o.n) := by
  have htotal := h.total
  have hlen (c : ResultCode) {n : Nat} (hn : n ≤ o.n - 2) : (finish c (setOutLen n s)).outLen.toNat ≤ o.n - 2 := by
    rw [finish_outLen, setOutLen_outLen, BitVec.toNat_ofNat]
    exact Nat.le_trans (Nat.mod_le _ _) hn
  unfold decodeStep at hstep
  split at hstep
  · cases hstep
    exact ⟨hlen _ (Nat.zero_le _), by simp⟩
  · have heffect := scanStep_effect p o s
    rw [hstep] at heffect
    cases heffect with
    | ended c n _ hc hn => exact ⟨hlen c (by omega), by simp [hc]⟩
    | overflowed hfull hd hlt hbody =>
      have hmore := h.lt_of_append hlt (hd.imp (fun hd' => ⟨hd', hbody hd' hskip⟩) id)
      exact ⟨hlen _ (Nat.zero_le _), fun _ => by omega⟩

/-- Settles O26: every internal step keeps the bound on cnt, and a full output buffer breaks it unless OUT_CAP is
smaller. -/
theorem decodeOverflowBounds : Obligations.DecodeOverflowBounds := by
  intro p s t o _ hskip hstart hn hrun
  have hbounds : t.outLen.toNat ≤ o.n - 2 ∧ (t.status.result = .overflow → p.outCap + 2 < o.n) := by
    refine runOp_induction (P := fun o' _ => CountBound o' ∧ o'.n = o.n)
      (Q := fun t => t.outLen.toNat ≤ o.n - 2 ∧ (t.status.result = .overflow → p.outCap + 2 < o.n))
      ?_ ?_ ⟨countBound_start hstart, rfl⟩ hrun
    · rintro o₁ s₁ o₂ s₂ ⟨hcnt, hsize⟩ hstep
      exact ⟨scanStep_countBound hskip hcnt (scanStep_of_running hstep), (decodeStep_goesOn hstep).1.same.n.trans hsize⟩
    · rintro o₁ s₁ t₁ ⟨hcnt, hsize⟩ hstep
      rw [← hsize]
      exact decodeStep_overflow_bounds hskip hcnt hstep
  exact ⟨hbounds.1, fun hover => Nat.lt_of_lt_of_le (hbounds.2 hover) hn⟩

/-- An internal step that goes on writes at most OUT_BUF[cnt], with cnt below N - 2. -/
theorem decodeStep_bytes {p : Params} {o o' : OpState} {s s' : State} (hskip : p.tailMode = .skip) (h : CountBound o)
    (hstep : decodeStep p o s = .running o' s') {a : Nat} (ha : ∀ k, k < o.n - 2 → a ≠ outBase + k) :
    memLookup s'.mem a = memLookup s.mem a := by
  have heffect := scanStep_effect p o s
  rw [scanStep_of_running hstep] at heffect
  cases heffect with
  | scanned => rfl
  | appended _ v _ _ hlt _ _ _ hcase => exact memLookup_memWrite_other _ (ha _ (h.lt_of_append hlt hcase))
  | toFinal => rfl
  | tailAppended _ v _ _ _ _ _ _ ht =>
    rw [hskip] at ht
    cases ht

/-- Settles O27: the registers are in the frame of every command, and each append is to OUT_BUF below N - 2. -/
theorem decodeFrame : Obligations.DecodeFrame := by
  intro s t o h he
  have hstart := started_start h
  obtain ⟨hop, -, -⟩ := h
  obtain ⟨hinLen, hwerr, hqueue, hresp, hdur, hdraws, houtDraw, -, -, hsize⟩ :=
    commandsLeaveTheRestUnchanged .decode s t o hop he
  refine ⟨hsize (.inl rfl), hinLen, hwerr, hqueue, hresp, hdur, hdraws, houtDraw, fun a ha => ?_⟩
  rw [exec_stepOf .decode hop] at he
  refine runOp_induction (P := fun o' s' => CountBound o' ∧ o'.n = o.n ∧ memLookup s'.mem a = memLookup s.mem a)
    (Q := fun t => memLookup t.mem a = memLookup s.mem a) ?_ ?_ ⟨countBound_start hstart, rfl, rfl⟩ he
  · rintro o₁ s₁ o₂ s₂ ⟨hcnt, hn, hmem⟩ hstep
    exact ⟨scanStep_countBound rfl hcnt (scanStep_of_running hstep), (decodeStep_goesOn hstep).1.same.n.trans hn,
      (decodeStep_bytes rfl hcnt hstep (by rwa [hn])).trans hmem⟩
  · rintro o₁ s₁ t₁ ⟨-, -, hmem⟩ hstep
    obtain ⟨c, n, -, -, rfl⟩ := decodeStep_ends hstep
    exact hmem

end Sys2Proof.Proofs
end

/-! PROOFS for 42_decode.md, part 4: the two readings of the last input byte (93_implementation_defined.md I1). -/
section

namespace Sys2Proof.Proofs

open Sys2Proof.Machine Sys2Proof.Safety

/-- This hardware with the other reading of the last input byte (I1). -/
abbrev literalBuild : Params := { Config.build with tailMode := .literal }

/-- Two completions that differ in memory and OUT_LEN at most, and do not differ but for NO_END_MARKER where the two
reads of each byte agree. -/
structure SameButTail (agree : Prop) (t t' : State) : Prop where
  result : t.status.result = t'.status.result
  sizeVal : t.sizeVal = t'.sizeVal
  inLen : t.inLen = t'.inLen
  state : t.status.result ≠ .noEndMarker → agree → t = t'

/-- The two readings differ in one step only: BODY at the last input byte. -/
theorem decodeStep_literal_eq {o : OpState} (s : State) (h : ¬ (o.dstate = .body ∧ o.i + 1 = o.n)) :
    decodeStep literalBuild o s = decodeStep Config.build o s := by
  unfold decodeStep scanStep
  cases hd : o.dstate with
  | seek | esc | final => rfl
  | body =>
    have hlast : ¬ o.i + 1 = o.n := fun hi => h ⟨hd, hi⟩
    simp only [decodeBody, decodeTail, if_neg hlast]
    rfl

/-- BODY at the last input byte under TAIL_MODE = LITERAL (I1). -/
theorem decodeStep_literal {b last : Byte} {o : OpState} {s : State}
    (h : ScanAt literalBuild .body [b] last o s) :
    decodeStep literalBuild o s =
      if b = Config.build.endByte then .running { o with dstate := .final } s
      else if b = Config.build.startByte then .running { o with dstate := .final, cnt := 0 } s
      else append literalBuild b { o with dstate := .final } s := by
  have hlen := h.length_eq
  rw [List.length_singleton] at hlen
  rw [h.body_eq, decodeBody, if_pos (by omega)]
  dsimp only
  rw [decodeTail, if_pos (by omega), h.readIn_eq]

/-- BODY at the last input byte goes to FINAL under both readings, and the operation completes there: with the same
count and memory where the byte is END, and in any case with the result that the final check gives. -/
theorem runOp_tail {b last : Byte} {fuel : Nat} {o : OpState} {s : State} (h : ScanAt Config.build .body [b] last o s)
    (hcnt : o.cnt < Config.build.outCap) (hfuel : 2 ≤ fuel) :
    ∃ cnt m, runOp (decodeStep Config.build) fuel o s =
        .next (completed ⟨finalCode Config.build last, o.cnt, s.mem⟩ s) ∧
      runOp (decodeStep literalBuild) fuel o s = .next (completed ⟨finalCode Config.build last, cnt, m⟩ s) ∧
      (b = Config.build.endByte → cnt = o.cnt ∧ m = s.mem) := by
  have hskip : runOp (decodeStep Config.build) fuel o s =
      .next (completed ⟨finalCode Config.build last, o.cnt, s.mem⟩ s) := by
    rw [runOp_of_running (by omega) (decodeStep_body_stops rfl h (by simp)),
      runOp_of_finished (by omega) (decodeStep_final rfl (h.toFinal o.cnt))]
    rfl
  obtain ⟨hdstate, hrest, hlast, hindex, hpos, hcap⟩ := h
  have h : ScanAt literalBuild .body [b] last o s := ⟨hdstate, hrest, hlast, hindex, hpos, hcap⟩
  have hstep := decodeStep_literal h
  by_cases hend : b = Config.build.endByte
  · rw [if_pos hend] at hstep
    refine ⟨o.cnt, s.mem, hskip, ?_, fun _ => ⟨rfl, rfl⟩⟩
    rw [runOp_of_running (by omega) hstep, runOp_of_finished (by omega) (decodeStep_final rfl (h.toFinal o.cnt))]
    rfl
  · rw [if_neg hend] at hstep
    by_cases hstart : b = Config.build.startByte
    · rw [if_pos hstart] at hstep
      refine ⟨0, s.mem, hskip, ?_, fun he => absurd he hend⟩
      rw [runOp_of_running (by omega) hstep, runOp_of_finished (by omega) (decodeStep_final rfl (h.toFinal 0))]
      rfl
    · rw [if_neg hstart] at hstep
      have hfinal := (h.toFinal (o.cnt + 1)).writeOut (by decide) o.cnt b
      refine ⟨o.cnt + 1, memWrite s.mem (outBase + o.cnt) b, hskip, ?_, fun he => absurd he hend⟩
      rw [runOp_of_running (by omega) (hstep.trans (if_pos hcnt)),
        runOp_of_finished (by omega) (decodeStep_final rfl hfinal)]
      rfl

/-- An internal step that goes on changes no read of the input. -/
theorem opInputs_goesOn {o o' : OpState} {s s' : State} (hn : o.n ≤ 256)
    (h : decodeStep Config.build o s = .running o' s') :
    opInput o' s' = opInput o s ∧ opInputAgain o' s' = opInputAgain o s := by
  obtain ⟨⟨same, outside, -, -, -⟩, -⟩ := decodeStep_goesOn h
  exact ⟨opInput_congr same.n same.draw fun k hk => inBuf_outside outside (by omega),
    opInputAgain_congr same.n same.draw fun k hk => inBuf_outside outside (by omega)⟩

/-- The last byte as the scan and as the final check read it. -/
theorem scanAt_lastByte {o : OpState} (s : State) (hin : ScanInside Config.build o) (hd : o.dstate = .body)
    (hi : o.i + 1 = o.n) : ScanAt Config.build .body [inByte o.draw o.i s] (finalByte o s) o s := by
  refine ⟨hd, ?_, rfl, hin.index, by omega, hin.capacity⟩
  rw [opInput_drop (by omega), List.drop_of_length_le (by rw [opInput_length]; omega)]

/-- Where the two reads of each byte agree, the final check reads what the scan reads at the last byte. -/
theorem inByte_eq_finalByte {o : OpState} {s : State} (hi : o.i + 1 = o.n) (hagree : opInputAgain o s = opInput o s) :
    inByte o.draw o.i s = finalByte o s := by
  have hagain := opInputAgain_getElem? o s (k := o.i) (by omega)
  rw [hagree, opInput_getElem? o s (by omega)] at hagain
  rw [Option.some.inj hagain, finalByte, show o.n - 1 = o.i by omega]

/-- The completions of both readings from the last input byte on. -/
theorem runOp_tailModes_last {fuel : Nat} {o : OpState} (s : State) (hin : ScanInside Config.build o)
    (hbound : CountBound o) (hd : o.dstate = .body) (hi : o.i + 1 = o.n) (hfuel : 2 ≤ fuel) :
    ∃ t t', runOp (decodeStep Config.build) fuel o s = .next t ∧ runOp (decodeStep literalBuild) fuel o s = .next t' ∧
      SameButTail (opInputAgain o s = opInput o s) t t' := by
  have hcnt : o.cnt < Config.build.outCap := by
    have hbody := hbound.body hd
    have hcap := hin.capacity
    rw [inCap_eq] at hcap
    rw [outCap_eq]
    omega
  obtain ⟨cnt, m, hrun, hrun', hsame⟩ := runOp_tail (scanAt_lastByte s hin hd hi) hcnt hfuel
  refine ⟨_, _, hrun, hrun', rfl, rfl, rfl, fun hres hagree => ?_⟩
  have hlast : finalByte o s = Config.build.endByte := by
    by_contra hne
    exact hres (if_neg hne)
  obtain ⟨rfl, rfl⟩ := hsame ((inByte_eq_finalByte hi hagree).trans hlast)
  rfl

/-- The runs of both readings keep step up to the last input byte, and complete alike. -/
theorem runOp_tailModes {fuel : Nat} {o : OpState} (s : State) (hin : ScanInside Config.build o) (hbound : CountBound o)
    (hopr : o.opr = .decode) (hfuel : stepsLeft o ≤ fuel) :
    ∃ t t', runOp (decodeStep Config.build) fuel o s = .next t ∧ runOp (decodeStep literalBuild) fuel o s = .next t' ∧
      SameButTail (opInputAgain o s = opInput o s) t t' := by
  induction fuel generalizing o s with
  | zero =>
    have := stepsLeft_pos o
    omega
  | succ fuel ih =>
    by_cases htail : o.dstate = .body ∧ o.i + 1 = o.n
    · obtain ⟨hd, hi⟩ := htail
      exact runOp_tailModes_last s hin hbound hd hi (by rw [stepsLeft, hopr] at hfuel; simp [hd] at hfuel; omega)
    · have hsame := decodeStep_literal_eq s htail
      cases hstep : decodeStep Config.build o s with
      | running o' s' =>
        rw [hstep] at hsame
        have hscan := scanStep_of_running hstep
        have hopr' := (decodeStep_goesOn hstep).1.same.opr.trans hopr
        have hless := scanStep_stepsLeft hopr hscan
        obtain ⟨hfirst, hagain⟩ := opInputs_goesOn hin.capacity hstep
        rw [runOp_of_running (by omega) hstep, runOp_of_running (by omega) hsame, ← hfirst, ← hagain]
        exact ih s' (scanStep_inside hin hscan) (scanStep_countBound rfl hbound hscan) hopr' (by omega)
      | finished t =>
        rw [hstep] at hsame
        exact ⟨t, t, runOp_of_finished (by omega) hstep, runOp_of_finished (by omega) hsame,
          rfl, rfl, rfl, fun _ _ => rfl⟩
      | fault r =>
        obtain ⟨t, ht⟩ := runOp_decode_completes (fuel := fuel + 1) s hin hopr hfuel
        rw [runOp_succ, hstep] at ht
        cases ht

/-- Settles O36: a DECODE from its start is inside its input, with nothing appended. -/
theorem tailModeChangesNoResultCode : Obligations.TailModeChangesNoResultCode := by
  intro s o h
  have hstart := started_start h
  have hleft := stepsLeft_le o
  obtain ⟨hop, -, hn⟩ := h
  obtain ⟨t, t', hrun, hrun', hsame⟩ := runOp_tailModes (fuel := stepBound o) s (scanInside_start hstart hn)
    (countBound_start hstart) (by rw [hstart, startOp_opr]) (by rw [stepBound]; omega)
  rw [exec_stepOf .decode hop]
  exact ⟨t, t', hrun, hrun', hsame.result, hsame.sizeVal, hsame.inLen, hsame.state⟩

end Sys2Proof.Proofs
end

/-! PROOFS for 43_size.md: EncSize, SIZE, and its agreement with ENCODE. -/
section

namespace Sys2Proof.Proofs

open Sys2Proof.Machine Sys2Proof.Safety

/-! ### EncSize -/

/-- Settles O13: the bounds are those of the number of reserved bytes, which is 0 to the length. -/
theorem encSizeFormsAndRange : Obligations.EncSizeFormsAndRange := by
  intro p payload
  have hsize := encSize_eq_length_add_reservedCount p payload
  have hcount : reservedCount p payload ≤ payload.length := List.countP_le_length
  have hall : reservedCount p payload = payload.length ↔ ∀ b ∈ payload, isReserved p b = true :=
    List.countP_eq_length
  refine ⟨hsize, by omega, encSize_le p payload, two_le_encSize p payload, ?_, fun hcap => ?_⟩
  · rw [← hall]
    omega
  · rw [inCap_eq] at hcap
    omega

/-! ### SIZE -/

/-- SIZE completes in its one internal step, with no check on N (R182). -/
theorem exec_size {s : State} {o : OpState} (h : Started .size s o) :
    exec .size s = .next (finish .ok (setSizeVal (encSize Config.build (opInput o s)) s)) := by
  obtain ⟨hop, -, hn⟩ := h
  rcases sizeStep_cases Config.build o s with ⟨-, hstep⟩ | ⟨hcap, -⟩
  · rw [exec_stepOf .size hop]
    exact runOp_of_finished (by rw [stepBound]; omega) hstep
  · omega

/-- Settles O12: the completion writes SIZE_VAL and STATUS. -/
theorem sizeCompletes : Obligations.SizeCompletes := fun _ _ h => exec_size h

/-- Settles O14: both completions write EncSize of the input to SIZE_VAL, and an ENCODE that fits writes it to
OUT_LEN. -/
theorem sizeAgreesWithEncode : Obligations.SizeAgreesWithEncode := by
  intro s s' o o' h h' hn hsame
  have hn' : o'.n = o.n := by rw [← opInput_length o' s', ← hsame, opInput_length]
  rcases exec_encode_cases h' with ⟨h0, -⟩ | ⟨-, -, he⟩ | ⟨-, -, he⟩
  · omega
  · exact ⟨_, _, exec_size h, he, by simp [hsame], fun hok => by cases hok⟩
  · exact ⟨_, _, exec_size h, he, by simp [encoded, hsame], fun _ => by simp [encoded, hsame]⟩

end Sys2Proof.Proofs
end

/-! PROOFS for 60_exceptions.md: no step stops, and the exceptions of an empty input, of a missing START and of an
illegal escape pair. -/
section

namespace Sys2Proof.Proofs

open Sys2Proof.Machine Sys2Proof.Safety

/-- Settles O59: the answer is the one that keeps the invariant. -/
theorem everyStepAnswers : Obligations.EveryStepAnswers :=
  fun _ hi => (step_answers_and_keeps_invariant hi).imp fun _ => And.left

/-- Settles O24: the search for START ends at the end of the input, with memory as it was. -/
theorem decodeWithoutStartReportsIt : Obligations.DecodeWithoutStartReportsIt := by
  intro s o h hn hstart
  have hne : opInput o s ≠ [] := mt opInput_eq_nil.1 (Nat.ne_of_gt hn)
  rw [exec_decode_eq h, decodeLoop_eq_seekResult hne, seekResult, afterStart_eq_none.2 hstart]
  rfl

/-- Settles O28: the loop appends the payload and fails at the pair, where OUT_LEN takes 0 and memory stays. -/
theorem illegalEscapePairIsADecodeError : Obligations.IllegalEscapePairIsADecodeError := by
  intro s o q rest c h hin hc
  have hlen := payload_length_le (x := []) h hin
  have hloop : decodeLoop Config.build (opInput o s) (finalByte o s) s.mem =
      ⟨.decodeError, 0, memWriteList s.mem outBase q⟩ := by
    rw [hin, List.cons_append, decodeLoop_cons_start,
      scanLoop_wire build_legal q (List.cons_ne_nil _ _) (by rw [outCap_eq]; omega), scanLoop_illegal build_legal hc]
    rfl
  refine ⟨_, exec_decode_eq h, ?_⟩
  rw [hloop]
  refine ⟨rfl, rfl, fun k hk => ?_⟩
  rw [outByte_written (s := s) (t := completed ⟨.decodeError, 0, memWriteList s.mem outBase q⟩ s) rfl rfl,
    List.getElem?_eq_getElem hk, Option.getD_some]

/-- Settles O15: ENCODE and DECODE check N before any work, and EncSize of no bytes is 2. -/
theorem emptyInputIsReported : Obligations.EmptyInputIsReported := by
  refine ⟨?_, fun s o h h0 => ?_⟩
  · rintro i s o (rfl | rfl) h h0
    · exact (encodeCompletes s o h).1 h0
    · rw [exec_decode_eq h, opInput_eq_nil.2 h0, decodeLoop_nil]
      rfl
  · rw [exec_size h, opInput_eq_nil.2 h0]
    rfl

end Sys2Proof.Proofs
end

/-! PROOFS for 70_reset_and_hazards.md: RST at a turn of the host. -/
section

namespace Sys2Proof.Proofs

open Sys2Proof.Machine Sys2Proof.Safety

/-- A step is a turn of the host where no running operation is due, after the codec's work where one runs (R64,
R113). -/
theorem step_hostTurn {s : State} (hleft : ∀ o, s.op = some o → 1 ≤ o.wait) :
    ∃ u, OutsideUnchanged Config.build s u ∧ step s = .next (hostTurn Config.build u) := by
  obtain ⟨idle, -, running⟩ := stepRunsTheAcceptedCommand s
  cases ho : s.op with
  | none => exact ⟨s, .refl _ s, idle ho⟩
  | some o =>
    obtain ⟨w, hw⟩ := Nat.exists_eq_add_of_le' (hleft o ho)
    exact ⟨_, (advance_outside s { o with wait := w }).1, running o w ho hw⟩

/-- Settles O53: the codec's work leaves RST at the head of the queue, and `resetBlock` keeps nothing of that work. -/
theorem rstAbandonsTheRunningOperation : Obligations.RstAbandonsTheRunningOperation := by
  intro s rest hq hleft
  obtain ⟨u, hout, hstep⟩ := step_hostTurn hleft
  have hturn : hostTurn Config.build u = resetBlock { u with hostQueue := rest } :=
    hostTurn_cons (hout.hostQueue.trans hq) _
  exact ⟨_, hstep, by simp [hturn, State.reset]⟩

end Sys2Proof.Proofs
end
